-- ==== Sys2Proof/Word.lean ====
section
/-! DEFINITION. The 64-bit interface word and the number of words a vector takes.

Spec: 00_scope.md R7 (WORD = 64), 20_memory.md R43, 30_encoding.md R68. -/

namespace Sys2Proof

/-- One word of the command port or of the response port (R7, R43). -/
abbrev Word := BitVec 64

/-- One byte of a host-side buffer (R10 `HostByte`, R85). -/
abbrev Byte := BitVec 8

/-- `nw(w) = ⌈w/64⌉`, the words a vector of width `w` takes (R68), so `nw 0 = 0`. -/
def nw (w : Nat) : Nat := (w + 63) / 64

end Sys2Proof
end

