-- ==== Sys2Proof/Syntax.lean ====
section
/-! DEFINITION. The fifteen commands of the unit: opcodes, and commands with their operands.

Spec: 30_encoding.md R60 to R65, opcode_table.json. Pseudo-instructions (R85) are host-level and stand in
Machine/HostSide.lean. -/

namespace Sys2Proof

/-- The commands of the opcode map (R65), one name a row. -/
inductive Opcode where
  | shr | xor | and | eq | lsb | narrow | widen
  | buildpoly
  | config | update | digest | reset | rdstatus
  | lfstep | orbit
deriving DecidableEq, Repr

/-- One command: header fields, then its payload as the 64-bit words that carry it (R60 to R64).
A vector operand is kept as its payload words, because a command may carry a vector that is not canonical and is then
answered with E_WIDTH (R67), not turned away by the decoder. Log entry 18. -/
inductive Instr where
  /-- SHR: width `w` = WA, shift amount `k` = X, vector `a` (R102). -/
  | shr (w k : BitVec 16) (a : List Word)
  /-- XOR: widths `wa` = WA and `wb` = X, vectors `a` and `b` (R103). -/
  | xor (wa wb : BitVec 16) (a b : List Word)
  /-- AND (R104). -/
  | and (wa wb : BitVec 16) (a b : List Word)
  /-- EQ (R105). -/
  | eq (wa wb : BitVec 16) (a b : List Word)
  /-- LSB: width `w`, vector `a` (R106). -/
  | lsb (w : BitVec 16) (a : List Word)
  /-- NARROW: width `w` = WA, target width `m` = X, vector `a` (R107). -/
  | narrow (w m : BitVec 16) (a : List Word)
  /-- WIDEN: width `w` = WA, target width `m` = X, vector `a` (R108). -/
  | widen (w m : BitVec 16) (a : List Word)
  /-- BUILDPOLY: width `n` = WA, degree count `l` = X, one word a degree (R131). -/
  | buildpoly (n l : BitVec 16) (degrees : List Word)
  /-- CONFIG: digest width `d` = WA, vectors INIT, P0, P1 of width D + 2 (R142). -/
  | config (d : BitVec 16) (init p0 p1 : List Word)
  /-- UPDATE: bit count and input byte (R144). -/
  | update (cnt : BitVec 4) (data : BitVec 8)
  /-- DIGEST (R146). -/
  | digest
  /-- RESET, the soft reset (R147). -/
  | reset
  /-- RDSTATUS (R148). -/
  | rdstatus
  /-- LFSTEP: width `n` = WA, value `v`, polynomial `p` (R171). -/
  | lfstep (n : BitVec 16) (v p : List Word)
  /-- ORBIT: width `n` = WA, polynomial `p`, budget word (R172). -/
  | orbit (n : BitVec 16) (p : List Word) (budget : Word)
deriving DecidableEq, Repr

end Sys2Proof
end

