-- ==== Sys2Proof/WellFormed.lean ====
section
/-! DEFINITION. When a term of `Instr` is a command the port can carry: each payload part has the number of
words its header gives it.

Spec: 30_encoding.md R62 (payload words of each format), R68 (payload length). Widths out of range and vectors that are
not canonical are legal commands answered with an error (R101), so they are no part of this check. -/

namespace Sys2Proof

/-- Every payload part has the length that R62 gives it from the header fields. -/
def Instr.wellFormed : Instr → Bool
  | .shr w _ a => a.length == nw w.toNat
  | .xor wa wb a b => a.length == nw wa.toNat && b.length == nw wb.toNat
  | .and wa wb a b => a.length == nw wa.toNat && b.length == nw wb.toNat
  | .eq wa wb a b => a.length == nw wa.toNat && b.length == nw wb.toNat
  | .lsb w a => a.length == nw w.toNat
  | .narrow w _ a => a.length == nw w.toNat
  | .widen w _ a => a.length == nw w.toNat
  | .buildpoly _ l degrees => degrees.length == l.toNat
  | .config d init p0 p1 =>
      init.length == nw (d.toNat + 2) && p0.length == nw (d.toNat + 2) && p1.length == nw (d.toNat + 2)
  | .update _ _ => true
  | .digest => true
  | .reset => true
  | .rdstatus => true
  | .lfstep n v p => v.length == nw n.toNat && p.length == nw n.toNat
  | .orbit n p _ => p.length == nw n.toNat

end Sys2Proof
end

