-- ==== Sys2Proof/Decode.lean ====
section
/-! DEFINITION. The decoder (words to command, total, rejecting by name), the encoder, and the words of an
opcode-table row.

Spec: 30_encoding.md R61 to R68 and R71, opcode_table.json (match and mask of each row). -/

namespace Sys2Proof

/-! ### Header fields (R61) -/

/-- OP = CW[63:56]. -/
def opField (cw : Word) : BitVec 8 := cw.extractLsb' 56 8
/-- WA = CW[55:40]. -/
def waField (cw : Word) : BitVec 16 := cw.extractLsb' 40 16
/-- X = CW[39:24]. -/
def xField (cw : Word) : BitVec 16 := cw.extractLsb' 24 16
/-- RSV = CW[23:12]. -/
def rsvField (cw : Word) : BitVec 12 := cw.extractLsb' 12 12
/-- CNT = CW[11:8]. -/
def cntField (cw : Word) : BitVec 4 := cw.extractLsb' 8 4
/-- DATA = CW[7:0]. -/
def dataField (cw : Word) : BitVec 8 := cw.extractLsb' 0 8

/-! ### The opcode table (R65, opcode_table.json) -/

/-- One row of opcode_table.json: a header is a legal header of the command when `cw &&& mask = pattern`. -/
structure OpRow where
  op : Opcode
  pattern : Word
  mask : Word
deriving DecidableEq, Repr

/-- opcode_table.json, "match" and "mask" of each row. The mask holds the OP field and every bit that R62 marks
"must be 0" for the command's format, the reserved field among them. -/
def opcodeTable : List OpRow := [
  ⟨.shr,       0x0100000000000000#64, 0xFF00000000FFFFFF#64⟩,
  ⟨.xor,       0x0200000000000000#64, 0xFF00000000FFFFFF#64⟩,
  ⟨.and,       0x0300000000000000#64, 0xFF00000000FFFFFF#64⟩,
  ⟨.eq,        0x0400000000000000#64, 0xFF00000000FFFFFF#64⟩,
  ⟨.lsb,       0x0500000000000000#64, 0xFF0000FFFFFFFFFF#64⟩,
  ⟨.narrow,    0x0600000000000000#64, 0xFF00000000FFFFFF#64⟩,
  ⟨.widen,     0x0700000000000000#64, 0xFF00000000FFFFFF#64⟩,
  ⟨.buildpoly, 0x1000000000000000#64, 0xFF00000000FFFFFF#64⟩,
  ⟨.config,    0x2000000000000000#64, 0xFF0000FFFFFFFFFF#64⟩,
  ⟨.update,    0x2100000000000000#64, 0xFFFFFFFFFFFFF000#64⟩,
  ⟨.digest,    0x2200000000000000#64, 0xFFFFFFFFFFFFFFFF#64⟩,
  ⟨.reset,     0x2300000000000000#64, 0xFFFFFFFFFFFFFFFF#64⟩,
  ⟨.rdstatus,  0x2400000000000000#64, 0xFFFFFFFFFFFFFFFF#64⟩,
  ⟨.lfstep,    0x3000000000000000#64, 0xFF0000FFFFFFFFFF#64⟩,
  ⟨.orbit,     0x3100000000000000#64, 0xFF0000FFFFFFFFFF#64⟩]

/-- The row whose OP field the header carries; none for an unknown opcode (R65, R66). -/
def rowOf (cw : Word) : Option OpRow :=
  opcodeTable.find? fun r => opField cw == opField r.pattern

/-- `PayloadLen(CW)` of a known opcode: a function of the header alone (R68). The `+ 2` of CONFIG is taken in ℕ, so
D = 65534 and 65535 do not wrap. -/
def payloadLen : Opcode → Word → Nat
  | .shr, cw | .lsb, cw | .narrow, cw | .widen, cw => nw (waField cw).toNat
  | .xor, cw | .and, cw | .eq, cw => nw (waField cw).toNat + nw (xField cw).toNat
  | .buildpoly, cw => (xField cw).toNat
  | .config, cw => 3 * nw ((waField cw).toNat + 2)
  | .update, _ | .digest, _ | .reset, _ | .rdstatus, _ => 0
  | .lfstep, cw => 2 * nw (waField cw).toNat
  | .orbit, cw => nw (waField cw).toNat + 1

/-- The command of a legal header and its payload words, the payload cut in the order of R62. -/
def operandsOf (op : Opcode) (cw : Word) (p : List Word) : Instr :=
  let wa := waField cw
  let x := xField cw
  let na := nw wa.toNat
  match op with
  | .shr => .shr wa x p
  | .xor => .xor wa x (p.take na) (p.drop na)
  | .and => .and wa x (p.take na) (p.drop na)
  | .eq => .eq wa x (p.take na) (p.drop na)
  | .lsb => .lsb wa p
  | .narrow => .narrow wa x p
  | .widen => .widen wa x p
  | .buildpoly => .buildpoly wa x p
  | .config =>
      let n := nw (wa.toNat + 2)
      .config wa (p.take n) ((p.drop n).take n) (p.drop (2 * n))
  | .update => .update (cntField cw) (dataField cw)
  | .digest => .digest
  | .reset => .reset
  | .rdstatus => .rdstatus
  | .lfstep => .lfstep wa (p.take na) (p.drop na)
  | .orbit => .orbit wa (p.take na) ((p.drop na).headD 0#64)

/-! ### The decoder (R66) -/

/-- What the decoder reads at the head of the command port. -/
inductive Decoded where
  /-- A legal command, and the words after it. -/
  | command (i : Instr) (rest : List Word)
  /-- The OP field is in no row of R65: only the header is consumed (R66, R71). -/
  | unknownOpcode (rest : List Word)
  /-- A known OP with a reserved or unused field that is not 0: header and payload are consumed (R66, R201). -/
  | reservedFieldSet (rest : List Word)
  /-- The host has not yet sent a whole command: no word at all, or a header with payload words still to come. -/
  | incomplete
deriving DecidableEq, Repr

/-- The decode check of R66. The payload is consumed before any check of the header's other fields, so that every
known-opcode command keeps the stream in step (R68). -/
def decode : List Word → Decoded
  | [] => .incomplete
  | cw :: ws =>
    match rowOf cw with
    | none => .unknownOpcode ws
    | some r =>
      let n := payloadLen r.op cw
      if ws.length < n then .incomplete
      else if cw &&& r.mask == r.pattern then .command (operandsOf r.op cw (ws.take n)) (ws.drop n)
      else .reservedFieldSet (ws.drop n)

/-! ### The encoder (R61, R62, R65) -/

/-- The OP value of each command (R65). -/
def Opcode.code : Opcode → BitVec 8
  | .shr => 0x01#8
  | .xor => 0x02#8
  | .and => 0x03#8
  | .eq => 0x04#8
  | .lsb => 0x05#8
  | .narrow => 0x06#8
  | .widen => 0x07#8
  | .buildpoly => 0x10#8
  | .config => 0x20#8
  | .update => 0x21#8
  | .digest => 0x22#8
  | .reset => 0x23#8
  | .rdstatus => 0x24#8
  | .lfstep => 0x30#8
  | .orbit => 0x31#8

/-- A header word from its fields, the reserved field 0 (R61). -/
def headerWord (op : Opcode) (wa x : BitVec 16) (cnt : BitVec 4) (data : BitVec 8) : Word :=
  op.code ++ wa ++ x ++ 0#12 ++ cnt ++ data

/-- The opcode of a command. -/
def Instr.opcode : Instr → Opcode
  | .shr .. => .shr
  | .xor .. => .xor
  | .and .. => .and
  | .eq .. => .eq
  | .lsb .. => .lsb
  | .narrow .. => .narrow
  | .widen .. => .widen
  | .buildpoly .. => .buildpoly
  | .config .. => .config
  | .update .. => .update
  | .digest => .digest
  | .reset => .reset
  | .rdstatus => .rdstatus
  | .lfstep .. => .lfstep
  | .orbit .. => .orbit

/-- The header word of a command (R62, R81). -/
def Instr.header : Instr → Word
  | .shr w k _ => headerWord .shr w k 0 0
  | .xor wa wb _ _ => headerWord .xor wa wb 0 0
  | .and wa wb _ _ => headerWord .and wa wb 0 0
  | .eq wa wb _ _ => headerWord .eq wa wb 0 0
  | .lsb w _ => headerWord .lsb w 0 0 0
  | .narrow w m _ => headerWord .narrow w m 0 0
  | .widen w m _ => headerWord .widen w m 0 0
  | .buildpoly n l _ => headerWord .buildpoly n l 0 0
  | .config d _ _ _ => headerWord .config d 0 0 0
  | .update cnt data => headerWord .update 0 0 cnt data
  | .digest => headerWord .digest 0 0 0 0
  | .reset => headerWord .reset 0 0 0 0
  | .rdstatus => headerWord .rdstatus 0 0 0 0
  | .lfstep n _ _ => headerWord .lfstep n 0 0 0
  | .orbit n _ _ => headerWord .orbit n 0 0 0

/-- The payload words of a command, in the order of R62. -/
def Instr.payload : Instr → List Word
  | .shr _ _ a => a
  | .xor _ _ a b => a ++ b
  | .and _ _ a b => a ++ b
  | .eq _ _ a b => a ++ b
  | .lsb _ a => a
  | .narrow _ _ a => a
  | .widen _ _ a => a
  | .buildpoly _ _ degrees => degrees
  | .config _ init p0 p1 => init ++ p0 ++ p1
  | .update _ _ => []
  | .digest => []
  | .reset => []
  | .rdstatus => []
  | .lfstep _ v p => v ++ p
  | .orbit _ p budget => p ++ [budget]

/-- The words of a command as the host sends them: the header, then the payload (R60). -/
def encode (i : Instr) : List Word := i.header :: i.payload

/-! ### An opcode-table row as words -/

/-- The words of the table word `w` of `nbits` bits: word k holds bits 64k+63 to 64k, and every bit of the command above
`nbits` is 0. The command has as many payload words as its header says (R68); an unknown opcode has none. -/
def tableWords (nbits w : Nat) : List Word :=
  let v := w % 2 ^ nbits
  let cw := BitVec.ofNat 64 v
  let n := match rowOf cw with
    | none => 0
    | some r => payloadLen r.op cw
  (List.range (n + 1)).map fun k => BitVec.ofNat 64 (v >>> (64 * k))

/-- The command the decoder reads from a table word; none where it rejects it. -/
def decodeTableWord (nbits w : Nat) : Option Instr :=
  match decode (tableWords nbits w) with
  | .command i _ => some i
  | .unknownOpcode _ => none
  | .reservedFieldSet _ => none
  | .incomplete => none

end Sys2Proof
end

