-- ==== Sys2Proof/Config.lean ====
section
/-! DEFINITION. What an implementation fixes and the spec leaves open: the largest operand width NMAX.

Spec: 00_scope.md R7 ("OPEN parameter, 66 ≤ NMAX ≤ 65535"), 92_eei_decisions.md D6. Log entry 1. -/

namespace Sys2Proof.Config

/-- NMAX − 66. Nothing in Lean can evaluate it: every value 0 to 65469 is left open, so that NMAX is any
number from 66 to 65535 and a claim holds for all of them (R7, D6; log entry 1, safe). -/
opaque nmaxOver66 : Fin 65470

end Sys2Proof.Config
end

