-- ==== Sys2Proof/Machine/State.lean ====
section
/-! DEFINITION. The state of the unit, its reset value, the status codes, and the reasons a step can stop.

Spec: 10_state.md R20 to R35, 60_exceptions.md R200, 30_encoding.md R60 and R69, 70_reset_and_hazards.md R230. -/

namespace Sys2Proof.Machine

/-- The hash engine that a successful CONFIG builds (R25): digest width D, the Parameters INIT, POLY0, POLY1, and the
hash register REG, all of width N = D + 2 by their types. -/
structure Engine where
  /-- STATUS.D, the digest width. -/
  d : BitVec 16
  /-- INIT, the Parameters' initial state. -/
  init : BitVec (d.toNat + 2)
  /-- POLY0, the Parameters' polynomial for input bit 0. -/
  poly0 : BitVec (d.toNat + 2)
  /-- POLY1, the Parameters' polynomial for input bit 1. -/
  poly1 : BitVec (d.toNat + 2)
  /-- REG, the hash register, the two headroom bits included (R32). -/
  reg : BitVec (d.toNat + 2)
deriving DecidableEq, Repr

/-- The state of the unit (R20 to R35) with its two ports (R60, D1). -/
structure State where
  /-- The engine, absent until a CONFIG succeeds (R35: absent state is an `Option` that is `none`, never 0). STATUS.CFG is
  1 exactly when it is present, and STATUS.D is its `d` (R25, R30). Log entry 2. -/
  engine : Option Engine
  /-- STATUS.ZF, the sticky zero-scan failure flag (R25, R30). -/
  zf : Bool
  /-- The command port: words the host has sent and the unit has not consumed, oldest first (R60, R44). Log entry 3. -/
  cmdPort : List Word
  /-- The response port: words the unit has sent since power-on, oldest first (R60, R69). Log entry 5. -/
  respPort : List Word
deriving DecidableEq, Repr

/-- The state right after power-on (R35, R230): no engine, ZF 0, no word on either port. -/
def State.reset : State := { engine := none, zf := false, cmdPort := [], respPort := [] }

/-- The status codes of R200. -/
inductive Status where
  | ok
  | eZeroScan
  | eWidth
  | eDegree
  | ePoly
  | eRange
  | eNoCfg
  | eIllegal
  | sBudget
deriving DecidableEq, Repr

/-- One response before it goes out as words (R60, R69). -/
structure Response where
  /-- RW[63:56]. -/
  status : Status
  /-- RW[55:40], the width of the result vectors; 0 when there are none. -/
  rwidth : BitVec 16
  /-- RW[31:0]. -/
  scalar : BitVec 32
  /-- The result words. -/
  words : List Word
deriving DecidableEq, Repr

/-- Reasons a step can fault. There is none: R210 says that an error ends its command with a status in the response and the
unit goes on, so every error of R200 is a next state. Log entry 8. -/
inductive Fault where
deriving DecidableEq, Repr

/-- Reasons a step can be refused. -/
inductive Refusal where
  /-- An arm of `exec` whose command has no meaning in the model yet (safe). No arm answers it: all fifteen commands
  have their meaning. -/
  | notModelled (mnemonic : String)
deriving DecidableEq, Repr

end Sys2Proof.Machine
end

