-- ==== Sys2Proof/Machine/Flags.lean ====
section
/-! DEFINITION. The STATUS register and its fields. The unit has no condition codes (R31).

Spec: 10_state.md R25, R30, R31. -/

namespace Sys2Proof.Machine

/-- STATUS.CFG: 1 when an engine exists (R25). -/
def State.cfg (s : State) : Bool := s.engine.isSome

/-- STATUS.D: the digest width of the configured engine, 0 when CFG = 0 (R30). -/
def State.d (s : State) : BitVec 16 :=
  match s.engine with
  | none => 0
  | some e => e.d

/-- STATUS: bit 0 CFG, bit 1 ZF, bits 15:2 read 0, bits 31:16 D (R30). -/
def State.statusReg (s : State) : BitVec 32 :=
  s.d ++ 0#14 ++ BitVec.ofBool s.zf ++ BitVec.ofBool s.cfg

/-- STATUS.ZF ← b. -/
def State.setZf (b : Bool) (s : State) : State := { s with zf := b }

end Sys2Proof.Machine
end

