-- ==== Sys2Proof/Machine/Operands.lean ====
section
/-! DEFINITION. Operands: vectors in payload and result words, the width check and the canonical check.

Spec: 30_encoding.md R67, 40_bitvector.md R101, 00_scope.md R7 and R9, 10_state.md R22. -/

namespace Sys2Proof.Machine

/-- NMAX, the largest operand width: an open parameter, 66 ≤ NMAX ≤ 65535 (R7, D6). Log entry 1. -/
def nmax : Nat := Config.nmaxOver66.val + 66

/-- `check_width(w)`: 1 ≤ w ≤ NMAX (R101). -/
def widthInRange (w : Nat) : Bool := decide (1 ≤ w) && decide (w ≤ nmax)

/-- The number that payload words carry, word 0 least significant (R67, R42). -/
def wordsToNat : List Word → Nat
  | [] => 0
  | w :: ws => w.toNat + 2 ^ 64 * wordsToNat ws

/-- `check_canon(v, w)`: the vector of width `w` that payload words carry, none when a bit at a position ≥ `w` is set
(R67, R101). -/
def readVec (w : Nat) (ws : List Word) : Option (BitVec w) :=
  if wordsToNat ws < 2 ^ w then some (BitVec.ofNat w (wordsToNat ws)) else none

/-- `check_width(w); check_canon(v, w)`: the vector operand of width `w`, none where the command is answered with
E_WIDTH (R101). -/
def readOperand (w : BitVec 16) (ws : List Word) : Option (BitVec w.toNat) :=
  if widthInRange w.toNat then readVec w.toNat ws else none

/-- The two-operand checks of R101: both widths in range, equal widths, both vectors canonical; none where the command is
answered with E_WIDTH. -/
def readOperands (wa wb : BitVec 16) (a b : List Word) : Option (BitVec wa.toNat × BitVec wa.toNat) :=
  if widthInRange wa.toNat && widthInRange wb.toNat && wa == wb then
    match readVec wa.toNat a, readVec wa.toNat b with
    | some va, some vb => some (va, vb)
    | _, _ => none
  else none

/-- The words of a result vector: word j holds bits 64j+63 to 64j (R67). -/
def vecWords {w : Nat} (v : BitVec w) : List Word :=
  (List.range (nw w)).map fun j => v.extractLsb' (64 * j) 64

end Sys2Proof.Machine
end

