-- ==== Sys2Proof/Machine/Ops.lean ====
section
/-! DEFINITION. The shared operations: responses, the raising of an error (the unit's only exception), the
engine's updates, and the command port.

Spec: 00_scope.md R10 (`respond`, `raise`), 30_encoding.md R69 and R70, 60_exceptions.md R200, R201 and R210. -/

namespace Sys2Proof.Machine

/-- What every meaning answers. -/
abbrev Result := Host.Outcome State Fault Refusal

/-! ### Responses -/

/-- The codes of R200. -/
def Status.code : Status → BitVec 8
  | .ok => 0x00#8
  | .eZeroScan => 0x01#8
  | .eWidth => 0x02#8
  | .eDegree => 0x03#8
  | .ePoly => 0x04#8
  | .eRange => 0x05#8
  | .eNoCfg => 0x06#8
  | .eIllegal => 0x07#8
  | .sBudget => 0x08#8

/-- The header RW: STATUS, RWIDTH, a reserved field that is always 0, SCALAR (R69). -/
def Response.header (r : Response) : Word := r.status.code ++ r.rwidth ++ 0#8 ++ r.scalar

/-- The words of a response: RW, then the result words (R60, R69). -/
def Response.toWords (r : Response) : List Word := r.header :: r.words

/-- The response's words go out on the response port, after those of every earlier response (R46). -/
def State.send (r : Response) (s : State) : State := { s with respPort := s.respPort ++ r.toWords }

/-- `respond(S, RWIDTH, SCALAR, words)` (R10, R69): the command completes with this response. -/
def respond (st : Status) (rwidth : BitVec 16) (scalar : BitVec 32) (words : List Word) (s : State) : Result :=
  .next (s.send { status := st, rwidth := rwidth, scalar := scalar, words := words })

/-- `raise E(info)` (R10, R210): the command ends with status E and SCALAR = info, RWIDTH = 0 and no result words (R70).
No trap is taken and nothing is saved; the unit goes on with the next command. -/
def raise (e : Status) (info : BitVec 32) (s : State) : Result := respond e 0 info [] s

/-! ### The command port -/

/-- The unit has consumed a command: these words stay on the command port. -/
def State.setCmdPort (rest : List Word) (s : State) : State := { s with cmdPort := rest }

/-- The decode check fails (R66, R201): E_ILLEGAL, the words of the command consumed, no other state changed. -/
def takeIllegal (rest : List Word) (s : State) : Result := raise .eIllegal 0 (s.setCmdPort rest)

/-- The host has not sent a whole command: the unit waits and nothing changes. Log entry 4. -/
def awaitWords (s : State) : Result := .next s

/-! ### The engine -/

/-- CONFIG's effect: the whole engine is replaced and ZF is cleared (R26, R142). -/
def State.configure (e : Engine) (s : State) : State := { s with engine := some e, zf := false }

/-- REG ← r in the configured engine `e`; the Parameters stay (R26, R28). -/
def State.setReg (e : Engine) (r : BitVec (e.d.toNat + 2)) (s : State) : State :=
  { s with engine := some { e with reg := r } }

end Sys2Proof.Machine
end

