-- ==== Sys2Proof/Machine/BitVector.lean ====
section
/-! DEFINITION. The datapath commands SHR, XOR, AND, EQ, LSB, NARROW, WIDEN: pure functions of their operands.

Spec: 40_bitvector.md R100 to R110. -/

namespace Sys2Proof.Machine

/-- The lowest-set-bit scan, as a checked result: the index of the lowest set bit, none for the zero vector
(R106, R241). -/
def lowestSetBit {w : Nat} (v : BitVec w) : Option Nat :=
  (List.range w).find? fun i => v.getLsbD i

/-- SHR (R102). K = W gives 0 (D7); K > W is E_RANGE. -/
def execShr (w k : BitVec 16) (a : List Word) (s : State) : Result :=
  match readOperand w a with
  | none => raise .eWidth 0 s
  | some v =>
    if w.toNat < k.toNat then raise .eRange 0 s
    else respond .ok w 0 (vecWords (v >>> k.toNat)) s

/-- XOR (R103). -/
def execXor (wa wb : BitVec 16) (a b : List Word) (s : State) : Result :=
  match readOperands wa wb a b with
  | none => raise .eWidth 0 s
  | some (va, vb) => respond .ok wa 0 (vecWords (va ^^^ vb)) s

/-- AND (R104). -/
def execAnd (wa wb : BitVec 16) (a b : List Word) (s : State) : Result :=
  match readOperands wa wb a b with
  | none => raise .eWidth 0 s
  | some (va, vb) => respond .ok wa 0 (vecWords (va &&& vb)) s

/-- EQ (R105): SCALAR = 1 if equal, else 0. -/
def execEq (wa wb : BitVec 16) (a b : List Word) (s : State) : Result :=
  match readOperands wa wb a b with
  | none => raise .eWidth 0 s
  | some (va, vb) => respond .ok 0 (if va = vb then 1 else 0) [] s

/-- LSB (R106): SCALAR = the index; a zero vector is E_ZERO_SCAN and does not set STATUS.ZF. -/
def execLsb (w : BitVec 16) (a : List Word) (s : State) : Result :=
  match readOperand w a with
  | none => raise .eWidth 0 s
  | some v =>
    match lowestSetBit v with
    | none => raise .eZeroScan 0 s
    | some i => respond .ok 0 (BitVec.ofNat 32 i) [] s

/-- NARROW (R107): the low M bits, for 1 ≤ M < W. -/
def execNarrow (w m : BitVec 16) (a : List Word) (s : State) : Result :=
  match readOperand w a with
  | none => raise .eWidth 0 s
  | some v =>
    if 1 ≤ m.toNat ∧ m.toNat < w.toNat then respond .ok m 0 (vecWords (v.setWidth m.toNat)) s
    else raise .eWidth 0 s

/-- WIDEN (R108): zero-extension, for W < M ≤ NMAX. -/
def execWiden (w m : BitVec 16) (a : List Word) (s : State) : Result :=
  match readOperand w a with
  | none => raise .eWidth 0 s
  | some v =>
    if w.toNat < m.toNat ∧ m.toNat ≤ nmax then respond .ok m 0 (vecWords (v.setWidth m.toNat)) s
    else raise .eWidth 0 s

end Sys2Proof.Machine
end

