-- ==== Sys2Proof/Machine/HashEngine.lean ====
section
/-! DEFINITION. The hash engine commands: CONFIG, UPDATE, DIGEST, RESET, RDSTATUS.

Spec: 42_hash_engine.md R140 to R151, 10_state.md R25 to R30. -/

namespace Sys2Proof.Machine

/-- The per-bit transition HSTEP (R143) with the polynomial of the input bit. The scan covers all N bits, the headroom bits
too; a zero register has no result (R145), and a shift by N gives 0 (D7). -/
def hstep {n : Nat} (r p : BitVec n) : Option (BitVec n) :=
  match lowestSetBit r with
  | none => none
  | some i => some ((r >>> (i + 1)) ^^^ p)

/-- What a stream of input bits leaves: the register, the bits consumed, and whether a zero register stopped it. -/
structure Fed (n : Nat) where
  reg : BitVec n
  consumed : Nat
  zeroScan : Bool
deriving DecidableEq, Repr

/-- The per-bit loop of UPDATE (R144, R145): each bit's effect depends only on the register and that bit. A zero register at
the bit about to be consumed stops the stream; the bits before it keep their effect. -/
def feedBits {n : Nat} (p0 p1 : BitVec n) : BitVec n → List Bool → Fed n
  | r, [] => { reg := r, consumed := 0, zeroScan := false }
  | r, b :: bs =>
    match hstep r (if b then p1 else p0) with
    | none => { reg := r, consumed := 0, zeroScan := true }
    | some r' =>
      let f := feedBits p0 p1 r' bs
      { f with consumed := f.consumed + 1 }

/-- DATA[0] to DATA[count − 1], the first consumed first (R42, R144); DATA bits at positions ≥ count are not touched. -/
def inputBits (count : Nat) (data : Byte) : List Bool := (List.range count).map fun i => data.getLsbD i

/-- CONFIG (R142): checks, then the engine is replaced in one step. A failing CONFIG changes no state (D33). -/
def execConfig (d : BitVec 16) (init p0 p1 : List Word) (s : State) : Result :=
  if 1 ≤ d.toNat ∧ d.toNat + 2 ≤ nmax then
    match readVec (d.toNat + 2) init, readVec (d.toNat + 2) p0, readVec (d.toNat + 2) p1 with
    | some vi, some v0, some v1 =>
      if v0.getLsbD 0 && v1.getLsbD 0 then
        respond .ok 0 0 [] (s.configure { d := d, init := vi, poly0 := v0, poly1 := v1, reg := vi })
      else raise .ePoly 0 s
    | _, _, _ => raise .eWidth 0 s
  else raise .eWidth 0 s

/-- UPDATE (R144, R145): consumes CNT bits of DATA, lowest first. On a zero register ZF is set and SCALAR is the number of bits
consumed before it. -/
def execUpdate (cnt : BitVec 4) (data : BitVec 8) (s : State) : Result :=
  match s.engine with
  | none => raise .eNoCfg 0 s
  | some e =>
    if 8 < cnt.toNat then raise .eRange 0 s
    else
      let f := feedBits e.poly0 e.poly1 e.reg (inputBits cnt.toNat data)
      if f.zeroScan then raise .eZeroScan (BitVec.ofNat 32 f.consumed) ((s.setReg e f.reg).setZf true)
      else respond .ok 0 (BitVec.ofNat 32 f.consumed) [] (s.setReg e f.reg)

/-- DIGEST (R146): the low D bits of REG; no scan, no state written. -/
def execDigest (s : State) : Result :=
  match s.engine with
  | none => raise .eNoCfg 0 s
  | some e => respond .ok e.d 0 (vecWords (e.reg.setWidth e.d.toNat)) s

/-- RESET, the soft reset (R147, R231): REG ← INIT; parameters and STATUS stay, ZF too (D14). -/
def execReset (s : State) : Result :=
  match s.engine with
  | none => raise .eNoCfg 0 s
  | some e => respond .ok 0 0 [] (s.setReg e e.init)

/-- RDSTATUS (R148): STATUS in SCALAR; works with no engine configured. -/
def execRdstatus (s : State) : Result := respond .ok 0 s.statusReg [] s

end Sys2Proof.Machine
end

