-- ==== Sys2Proof/Machine/Polynomial.lean ====
section
/-! DEFINITION. The polynomial builder: BUILDPOLY.

Spec: 41_polynomial.md R130 to R135, 90_conflicts.md C1 (degree d is bit N − 1 − d, never bit d). -/

namespace Sys2Proof.Machine

/-- `P[N−1−d] ← 1` (R130). -/
def setDegree {n : Nat} (p : BitVec n) (d : Nat) : BitVec n := p ||| BitVec.twoPow n (n - 1 - d)

/-- The builder (R131): start at 0, set the bit of each degree, then bit 0. -/
def buildPoly (n : Nat) (degrees : List Nat) : BitVec n :=
  degrees.foldl setDegree 0#n ||| BitVec.twoPow n 0

/-- BUILDPOLY (R131). One degree out of range rejects the whole command. -/
def execBuildpoly (n _l : BitVec 16) (degrees : List Word) (s : State) : Result :=
  if widthInRange n.toNat then
    if degrees.all fun d => decide (d.toNat < n.toNat) then
      respond .ok n 0 (vecWords (buildPoly n.toNat (degrees.map BitVec.toNat))) s
    else raise .eDegree 0 s
  else raise .eWidth 0 s

end Sys2Proof.Machine
end

