-- ==== Sys2Proof/Machine/Orbit.lean ====
section
/-! DEFINITION. The orbit enumerator, a fixed-shift reference LFSR: LFSTEP, ORBIT.

Spec: 43_orbit.md R170 to R176. -/

namespace Sys2Proof.Machine

/-- One step of the recurrence (R171). The carry mask is taken from bit 0 before the shift. -/
def lfStep {n : Nat} (v p : BitVec n) : BitVec n :=
  let carryMask := if v.getLsbD 0 then BitVec.allOnes n else 0#n
  (v >>> 1) ^^^ (carryMask &&& p)

/-- The loop of R172 from `value`, with `budget` values still allowed: whether it closed, and the values recorded from
here on. It records a value before it steps and tests for the seed after. -/
def orbitFrom {n : Nat} (p seed : BitVec n) : Nat → BitVec n → Bool × List (BitVec n)
  | 0, _ => (false, [])
  | budget + 1, value =>
    let value' := lfStep value p
    if value' = seed then (true, [value])
    else
      let (closed, out) := orbitFrom p seed budget value'
      (closed, value :: out)

/-- LFSTEP (R171). -/
def execLfstep (n : BitVec 16) (v p : List Word) (s : State) : Result :=
  if widthInRange n.toNat then
    match readVec n.toNat v, readVec n.toNat p with
    | some vv, some vp =>
      if vp.getLsbD 0 then respond .ok n 0 (vecWords (lfStep vv vp)) s
      else raise .ePoly 0 s
    | _, _ => raise .eWidth 0 s
  else raise .eWidth 0 s

/-- ORBIT (R172): the orbit of the seed `build_polynomial(N, {})`, COUNT first, then the values in visit order. S_BUDGET is a
normal outcome, not an error. -/
def execOrbit (n : BitVec 16) (p : List Word) (budget : Word) (s : State) : Result :=
  match readOperand n p with
  | none => raise .eWidth 0 s
  | some vp =>
    if budget = 0 then raise .eRange 0 s
    else if vp.getLsbD 0 then
      let seed := buildPoly n.toNat []
      let (closed, out) := orbitFrom vp seed budget.toNat seed
      respond (if closed then .ok else .sBudget) n 0
        (BitVec.ofNat 64 out.length :: out.flatMap fun v => vecWords v) s
    else raise .ePoly 0 s

end Sys2Proof.Machine
end

