-- ==== Sys2Proof/Machine/Dispatch.lean ====
section
/-! DEFINITION. The dispatch: one arm a command, each one direct call of its meaning. -/

namespace Sys2Proof.Machine

def exec (i : Instr) (s : State) : Host.Outcome State Fault Refusal :=
  match i with
  -- 40_bitvector.md
  | .shr w k a => Sys2Proof.Machine.execShr w k a s
  | .xor wa wb a b => Sys2Proof.Machine.execXor wa wb a b s
  | .and wa wb a b => Sys2Proof.Machine.execAnd wa wb a b s
  | .eq wa wb a b => Sys2Proof.Machine.execEq wa wb a b s
  | .lsb w a => Sys2Proof.Machine.execLsb w a s
  | .narrow w m a => Sys2Proof.Machine.execNarrow w m a s
  | .widen w m a => Sys2Proof.Machine.execWiden w m a s
  -- 41_polynomial.md
  | .buildpoly n l degrees => Sys2Proof.Machine.execBuildpoly n l degrees s
  -- 42_hash_engine.md
  | .config d init p0 p1 => Sys2Proof.Machine.execConfig d init p0 p1 s
  | .update cnt data => Sys2Proof.Machine.execUpdate cnt data s
  | .digest => Sys2Proof.Machine.execDigest s
  | .reset => Sys2Proof.Machine.execReset s
  | .rdstatus => Sys2Proof.Machine.execRdstatus s
  -- 43_orbit.md
  | .lfstep n v p => Sys2Proof.Machine.execLfstep n v p s
  | .orbit n p budget => Sys2Proof.Machine.execOrbit n p budget s

end Sys2Proof.Machine
end

