-- ==== Sys2Proof/Machine/Step.lean ====
section
/-! DEFINITION. One step of the unit: the next command of the command port, whole.

Spec: 20_memory.md R44, 30_encoding.md R66, R68 and R71. The unit has no program counter: the next command is the next
header word in arrival order (R21). -/

namespace Sys2Proof.Machine

/-- One step (R44): the command at the head of the command port is consumed and run to its end, its response sent. A header
that fails the decode check is answered with E_ILLEGAL (R66). With no whole command on the port the unit waits. -/
def step (s : State) : Host.Outcome State Fault Refusal :=
  match decode s.cmdPort with
  | .command i rest => exec i (s.setCmdPort rest)
  | .unknownOpcode rest => takeIllegal rest s
  | .reservedFieldSet rest => takeIllegal rest s
  | .incomplete => awaitWords s

/-- The command of a table word stands at the head of the command port, before the words already there: the very next step
runs it. Log entry 7. -/
def State.withFetchWord (s : State) (nbits w : Nat) : State :=
  s.setCmdPort (tableWords nbits w ++ s.cmdPort)

end Sys2Proof.Machine
end

