-- ==== Sys2Proof/Machine/HostSide.lean ====
section
/-! DEFINITION. What the host does to the unit: sending words, power-on, and the pseudo-instructions it expands into
UPDATE commands. No command and no step calls these.

A host that never relies on lost framing sees its command stream as stuck after an unknown OP (R71, U10).

Spec: 00_scope.md R15, 30_encoding.md R85, 70_reset_and_hazards.md R230, 92_eei_decisions.md D29. -/

namespace Sys2Proof.Machine

/-- The host sends words: they wait on the command port behind those already sent (R44). -/
def State.hostSend (ws : List Word) (s : State) : State := { s with cmdPort := s.cmdPort ++ ws }

/-- Power-on reset (R230): every piece of state takes its power-on value. A command in progress is lost and its response is
not sent. Log entry 10. -/
def State.powerOn (_s : State) : State := State.reset

/-- `UPDATEBIT b` (R85). -/
def updateBitExpansion (b : Bool) : List Instr := [.update 1 (if b then 1 else 0)]

/-- `UPDATEBITS buf, bitcount` (R85): whole bytes, then the low bits of the next one. None when the buffer holds fewer than
⌈bitcount/8⌉ bytes, which is the host's duty (N15). Log entry 15. -/
def updateBitsExpansion (buf : List Byte) (bitcount : Nat) : Option (List Instr) :=
  if buf.length < (bitcount + 7) / 8 then none
  else
    let whole := (buf.take (bitcount / 8)).map fun b => Instr.update 8 b
    let last :=
      if bitcount % 8 = 0 then []
      else [Instr.update (BitVec.ofNat 4 (bitcount % 8)) (buf.getD (bitcount / 8) 0)]
    some (whole ++ last)

/-- `UPDATEBYTES buf, count` is `UPDATEBITS buf, 8·count` (R85). -/
def updateBytesExpansion (buf : List Byte) (count : Nat) : Option (List Instr) :=
  updateBitsExpansion buf (8 * count)

/-- The host sends one command and the unit takes a step. On an idle unit (empty command port) the step runs it. -/
def issue (i : Instr) (s : State) : Result := step (s.hostSend (encode i))

/-- The status code of the first response sent after `before`, none when nothing was sent. -/
def newestStatus (before after : State) : Option (BitVec 8) :=
  (after.respPort.drop before.respPort.length).head?.map fun rw => rw.extractLsb' 56 8

/-- The host runs an expansion: it stops at the first response that is not OK (R85, D29). Log entry 15. -/
def runExpansion : List Instr → State → Result
  | [], s => .next s
  | i :: is, s =>
    match issue i s with
    | .next s' => if newestStatus s s' = some 0 then runExpansion is s' else .next s'
    | .fault r => .fault r
    | .refused r => .refused r

/-- A command stream as a host that relies on framing may follow it: in frame, or lost after a header with an unknown OP
(R66 "framing lost", R71, U10). Log entry 6. -/
inductive HostStream where
  /-- Every header so far had a known OP. -/
  | inFrame (s : State)
  /-- A header had an unknown OP; `s` is the unit right after its E_ILLEGAL. -/
  | lost (s : State)
deriving DecidableEq, Repr

/-- A step of a stream. In frame it is the unit's step; the step that answers an unknown OP loses the frame; a lost stream is
stuck, no further step is defined (U10). The unit itself reads the next word as a header (R71): that is `step`. -/
def streamStep : HostStream → Option HostStream
  | .lost _ => none
  | .inFrame s =>
    match step s with
    | .next t =>
      match decode s.cmdPort with
      | .unknownOpcode _ => some (.lost t)
      | .command _ _ => some (.inFrame t)
      | .reservedFieldSet _ => some (.inFrame t)
      | .incomplete => some (.inFrame t)
    | .fault _ => none
    | .refused _ => none

end Sys2Proof.Machine
end

