-- ==== Sys2Proof/Machine/Text.lean ====
section
/-! DEFINITION. Text: rendering of vectors, the assembler and the disassembler. Display and source only: no command and
no step uses them (R86).

Spec: 30_encoding.md R80 to R86, 92_eei_decisions.md D22 and D30. Log entries 13 and 14. Text is a list of characters. -/

namespace Sys2Proof.Machine

/-! ### Rendering (R86) -/

/-- One hexadecimal digit, upper case as the spec prints it. -/
def hexDigit (n : Nat) : Char := if n < 10 then Char.ofNat (48 + n) else Char.ofNat (55 + n)

/-- A word as exactly 16 hexadecimal digits, most significant first (R86). -/
def renderWord (w : Word) : List Char :=
  (List.range 16).map fun k => hexDigit (w.toNat / 16 ^ (15 - k) % 16)

/-- Vector words as digits, most significant word first, each word zero-padded to its full width (R86). -/
def renderWords (ws : List Word) : List Char := ws.reverse.flatMap renderWord

/-- The rendering of a vector: 16·⌈W/64⌉ digits (R86). -/
def render {w : Nat} (v : BitVec w) : List Char := renderWords (vecWords v)

/-! ### Numbers in source text (R80) -/

/-- The value of a digit character in a base, none when it is no digit of that base. -/
def digitValue (base : Nat) (c : Char) : Option Nat :=
  let n := c.toNat
  let v :=
    if 48 ≤ n ∧ n ≤ 57 then n - 48
    else if 65 ≤ n ∧ n ≤ 70 then n - 55
    else if 97 ≤ n ∧ n ≤ 102 then n - 87
    else base
  if v < base then some v else none

/-- Digits of one base; `_` may stand between two digits (R80). `afterDigit`: the character before is a digit. -/
def parseDigits (base : Nat) : List Char → Nat → Bool → Option Nat
  | [], acc, afterDigit => if afterDigit then some acc else none
  | c :: cs, acc, afterDigit =>
    if c = '_' then
      if afterDigit then parseDigits base cs acc false else none
    else
      match digitValue base c with
      | none => none
      | some v => parseDigits base cs (acc * base + v) true

/-- A number: `0x` hexadecimal, `0b` binary, else decimal (R80). -/
def parseNumber : List Char → Option Nat
  | '0' :: 'x' :: cs => parseDigits 16 cs 0 false
  | '0' :: 'b' :: cs => parseDigits 2 cs 0 false
  | cs => parseDigits 10 cs 0 false

/-! ### Source lines (R80, R81) -/

/-- A source line read as its mnemonic and operand values, before any of them is checked to fit (R81, R83, R85). -/
inductive AsmLine where
  | shr (w a k : Nat)
  | xor (wa wb a b : Nat)
  | and (wa wb a b : Nat)
  | eq (wa wb a b : Nat)
  | lsb (w a : Nat)
  | narrow (w m a : Nat)
  | widen (w m a : Nat)
  | buildpoly (n : Nat) (degrees : List Nat)
  | config (d init p0 p1 : Nat)
  | update (cnt data : Nat)
  | digest
  | reset
  | rdstatus
  | lfstep (n v p : Nat)
  | orbit (n p b : Nat)
  /-- `UPDATEBIT b` (R85). -/
  | updatebit (b : Nat)
  /-- `.word V` (R83). -/
  | word (v : Nat)
deriving DecidableEq, Repr

/-- Space, tab and carriage return separate words of a line. -/
def isBlank (c : Char) : Bool := c == ' ' || c == '\t' || c == '\r'

/-- The text without blanks at both ends. -/
def trim (cs : List Char) : List Char := ((cs.dropWhile isBlank).reverse.dropWhile isBlank).reverse

/-- The pieces of a text between separators. -/
def splitAtChar (sep : Char) : List Char → List (List Char)
  | [] => [[]]
  | c :: cs =>
    if c = sep then [] :: splitAtChar sep cs
    else
      match splitAtChar sep cs with
      | [] => [[c]]
      | p :: ps => (c :: p) :: ps

/-- Comma-separated numbers; an empty text is no number at all. -/
def parseNumbers (cs : List Char) : Option (List Nat) :=
  if trim cs = [] then some [] else ((splitAtChar ',' cs).map trim).mapM parseNumber

/-- `W` or `WA/WB` (R81). -/
def parseWidths (cs : List Char) : Option (Nat × Nat) :=
  match (splitAtChar '/' cs).map trim with
  | [w] => (parseNumber w).map fun n => (n, n)
  | [wa, wb] => do return (← parseNumber wa, ← parseNumber wb)
  | _ => none

/-- `WA/WB, A, B` of the two-operand commands (R81). -/
def parseTwo (cs : List Char) : Option (Nat × Nat × Nat × Nat) :=
  match splitAtChar ',' cs with
  | [w, a, b] => do
    let (wa, wb) ← parseWidths w
    return (wa, wb, ← parseNumber (trim a), ← parseNumber (trim b))
  | _ => none

/-- The braces of a degree list. Written by code, because no string of the model holds a brace. -/
def openBrace : Char := Char.ofNat 123
/-- See `openBrace`. -/
def closeBrace : Char := Char.ofNat 125

/-- `N, {d1, d2, ...}` of BUILDPOLY (R81). -/
def parseDegreeList (cs : List Char) : Option (Nat × List Nat) := do
  let n ← parseNumber (trim (cs.takeWhile (· != ',')))
  match trim ((cs.dropWhile (· != ',')).drop 1) with
  | [] => none
  | c :: rest =>
    if c = openBrace ∧ rest.getLast? = some closeBrace then
      return (n, ← parseNumbers rest.dropLast)
    else none

/-- The operands of a mnemonic (R81). -/
def parseOperands (mnemonic cs : List Char) : Option AsmLine :=
  let m := mnemonic.map Char.toUpper
  if m = "SHR".toList then
    match parseNumbers cs with
    | some [w, a, k] => some (.shr w a k)
    | _ => none
  else if m = "XOR".toList then (parseTwo cs).map fun (wa, wb, a, b) => .xor wa wb a b
  else if m = "AND".toList then (parseTwo cs).map fun (wa, wb, a, b) => .and wa wb a b
  else if m = "EQ".toList then (parseTwo cs).map fun (wa, wb, a, b) => .eq wa wb a b
  else if m = "LSB".toList then
    match parseNumbers cs with
    | some [w, a] => some (.lsb w a)
    | _ => none
  else if m = "NARROW".toList then
    match parseNumbers cs with
    | some [w, t, a] => some (.narrow w t a)
    | _ => none
  else if m = "WIDEN".toList then
    match parseNumbers cs with
    | some [w, t, a] => some (.widen w t a)
    | _ => none
  else if m = "BUILDPOLY".toList then (parseDegreeList cs).map fun (n, ds) => .buildpoly n ds
  else if m = "CONFIG".toList then
    match parseNumbers cs with
    | some [d, i, p0, p1] => some (.config d i p0 p1)
    | _ => none
  else if m = "UPDATE".toList then
    match parseNumbers cs with
    | some [cnt, data] => some (.update cnt data)
    | _ => none
  else if m = "DIGEST".toList then if cs = [] then some .digest else none
  else if m = "RESET".toList then if cs = [] then some .reset else none
  else if m = "RDSTATUS".toList then if cs = [] then some .rdstatus else none
  else if m = "LFSTEP".toList then
    match parseNumbers cs with
    | some [n, v, p] => some (.lfstep n v p)
    | _ => none
  else if m = "ORBIT".toList then
    match parseNumbers cs with
    | some [n, p, b] => some (.orbit n p b)
    | _ => none
  else if m = "UPDATEBIT".toList then
    match parseNumbers cs with
    | some [b] => some (.updatebit b)
    | _ => none
  else if m = ".WORD".toList then
    match parseNumbers cs with
    | some [v] => some (.word v)
    | _ => none
  else none

/-- One source line (R80): `some none` for a line with no command, none for an assembly error. `;` starts a comment. -/
def parseLine (line : List Char) : Option (Option AsmLine) :=
  let text := trim (line.takeWhile (· != ';'))
  if text = [] then some none
  else (parseOperands (text.takeWhile (!isBlank ·)) (trim (text.dropWhile (!isBlank ·)))).map some

/-! ### The assembler (R81 to R83) -/

/-- A header field of `n` bits; a value outside its range is an assembly error (R82). -/
def fieldOf (n v : Nat) : Option (BitVec n) := if v < 2 ^ n then some (BitVec.ofNat n v) else none

/-- A vector operand at its width; a literal that does not fit is an assembly error, never truncated (R82). -/
def vectorOf (w v : Nat) : Option (List Word) := if v < 2 ^ w then some (vecWords (BitVec.ofNat w v)) else none

/-- The command of a source line; none for an assembly error (R81, R82). `.word` is no command. -/
def AsmLine.instr : AsmLine → Option Instr
  | .shr w a k => do return .shr (← fieldOf 16 w) (← fieldOf 16 k) (← vectorOf w a)
  | .xor wa wb a b => do return .xor (← fieldOf 16 wa) (← fieldOf 16 wb) (← vectorOf wa a) (← vectorOf wb b)
  | .and wa wb a b => do return .and (← fieldOf 16 wa) (← fieldOf 16 wb) (← vectorOf wa a) (← vectorOf wb b)
  | .eq wa wb a b => do return .eq (← fieldOf 16 wa) (← fieldOf 16 wb) (← vectorOf wa a) (← vectorOf wb b)
  | .lsb w a => do return .lsb (← fieldOf 16 w) (← vectorOf w a)
  | .narrow w m a => do return .narrow (← fieldOf 16 w) (← fieldOf 16 m) (← vectorOf w a)
  | .widen w m a => do return .widen (← fieldOf 16 w) (← fieldOf 16 m) (← vectorOf w a)
  | .buildpoly n degrees => do
    return .buildpoly (← fieldOf 16 n) (← fieldOf 16 degrees.length) (← degrees.mapM (fieldOf 64))
  | .config d init p0 p1 => do
    return .config (← fieldOf 16 d) (← vectorOf (d + 2) init) (← vectorOf (d + 2) p0) (← vectorOf (d + 2) p1)
  | .update cnt data => do return .update (← fieldOf 4 cnt) (← fieldOf 8 data)
  | .digest => some .digest
  | .reset => some .reset
  | .rdstatus => some .rdstatus
  | .lfstep n v p => do return .lfstep (← fieldOf 16 n) (← vectorOf n v) (← vectorOf n p)
  | .orbit n p b => do return .orbit (← fieldOf 16 n) (← vectorOf n p) (← fieldOf 64 b)
  | .updatebit b => do return .update 1 ((← fieldOf 1 b).setWidth 8)
  | .word _ => none

/-- The words of a source line; none for an assembly error (R81 to R83). -/
def assemble : AsmLine → Option (List Word)
  | .word v => (fieldOf 64 v).map fun w => [w]
  | l => l.instr.map encode

/-- The words of a source text, one command a line (R80). -/
def assembleText (text : List Char) : Option (List Word) := do
  let lines ← (splitAtChar '\n' text).mapM parseLine
  let words ← (lines.filterMap id).mapM assemble
  return words.flatten

/-! ### The disassembler (R84) -/

/-- A number in decimal. -/
def decimal (n : Nat) : List Char := Nat.toDigits 10 n

/-- A vector literal: `0x` and the rendering, `_` between words (R86). A vector of no words prints as 0. -/
def vectorText (ws : List Word) : List Char :=
  if ws = [] then "0".toList
  else "0x".toList ++ List.intercalate ['_'] (ws.reverse.map renderWord)

/-- Operands separated by a comma and a space. -/
def operandText (os : List (List Char)) : List Char := List.intercalate ", ".toList os

/-- `W`, or `WA/WB` where they differ (R81). -/
def widthsText (wa wb : BitVec 16) : List Char :=
  if wa = wb then decimal wa.toNat else decimal wa.toNat ++ "/".toList ++ decimal wb.toNat

/-- A command in the syntax of R81 (R84). -/
def instrText : Instr → List Char
  | .shr w k a => "SHR ".toList ++ operandText [decimal w.toNat, vectorText a, decimal k.toNat]
  | .xor wa wb a b => "XOR ".toList ++ operandText [widthsText wa wb, vectorText a, vectorText b]
  | .and wa wb a b => "AND ".toList ++ operandText [widthsText wa wb, vectorText a, vectorText b]
  | .eq wa wb a b => "EQ ".toList ++ operandText [widthsText wa wb, vectorText a, vectorText b]
  | .lsb w a => "LSB ".toList ++ operandText [decimal w.toNat, vectorText a]
  | .narrow w m a => "NARROW ".toList ++ operandText [decimal w.toNat, decimal m.toNat, vectorText a]
  | .widen w m a => "WIDEN ".toList ++ operandText [decimal w.toNat, decimal m.toNat, vectorText a]
  | .buildpoly n _ degrees =>
    "BUILDPOLY ".toList ++ operandText [decimal n.toNat,
      [openBrace] ++ operandText (degrees.map fun d => decimal d.toNat) ++ [closeBrace]]
  | .config d init p0 p1 =>
    "CONFIG ".toList ++ operandText [decimal d.toNat, vectorText init, vectorText p0, vectorText p1]
  | .update cnt data =>
    "UPDATE ".toList ++ operandText [decimal cnt.toNat,
      "0x".toList ++ [hexDigit (data.toNat / 16), hexDigit (data.toNat % 16)]]
  | .digest => "DIGEST".toList
  | .reset => "RESET".toList
  | .rdstatus => "RDSTATUS".toList
  | .lfstep n v p => "LFSTEP ".toList ++ operandText [decimal n.toNat, vectorText v, vectorText p]
  | .orbit n p budget => "ORBIT ".toList ++ operandText [decimal n.toNat, vectorText p, decimal budget.toNat]

/-- A word as the directive that emits it (R83, R84). -/
def wordText (w : Word) : List Char := ".word 0x".toList ++ renderWord w

/-- The lines of the command at the head of a stream, and the words after it; none when the stream holds no whole command
(R84). A header that decodes to E_ILLEGAL prints as `.word`, and so does each payload word consumed with it. -/
def disassemble (ws : List Word) : Option (List (List Char) × List Word) :=
  match decode ws with
  | .command i rest => some ([instrText i], rest)
  | .unknownOpcode rest => some ((ws.take (ws.length - rest.length)).map wordText, rest)
  | .reservedFieldSet rest => some ((ws.take (ws.length - rest.length)).map wordText, rest)
  | .incomplete => none

end Sys2Proof.Machine
end

