-- ==== Sys2Proof/Safety.lean ====
section
/-! DEFINITION. The terms claims are stated in: legal engine states, response headers as numbers, bits of payload
words, and what a command answers. -/

namespace Sys2Proof.Safety

open Sys2Proof.Machine

/-! ### Legal states -/

/-- What CONFIG guarantees of an engine (R7, R27, R142): 1 ≤ D ≤ NMAX − 2, and both polynomials have bit 0 set. -/
def engineLegal (e : Engine) : Bool :=
  decide (1 ≤ e.d.toNat) && decide (e.d.toNat + 2 ≤ nmax) && e.poly0.getLsbD 0 && e.poly1.getLsbD 0

/-- The invariant of the unit: a configured engine is legal, and ZF is set only while one exists (R27, R30). -/
def stateLegal (s : State) : Bool :=
  match s.engine with
  | none => !s.zf
  | some e => engineLegal e

/-- A run that never stops: however many steps are taken, the unit answers a next state (R210, R244). -/
def NeverStops (s : State) : Prop := ∀ k, ∃ t, Sys2Proof.core.run k s = .next t

/-! ### Responses, in the spec's numbers -/

/-- RW = STATUS·2^56 + RWIDTH·2^40 + SCALAR (R69). -/
def rw (status width scalar : Nat) : Word := BitVec.ofNat 64 (status * 2 ^ 56 + width * 2 ^ 40 + scalar)

/-- The state `s` after the response `rw status width scalar` and its words have gone out, nothing else changed. -/
def sent (s : State) (status width scalar : Nat) (words : List Word) : State :=
  { s with respPort := s.respPort ++ rw status width scalar :: words }

/-- The command completes with this response and changes nothing else. -/
def Answers (i : Instr) (s : State) (status width scalar : Nat) (words : List Word) : Prop :=
  exec i s = .next (sent s status width scalar words)

/-! ### Vectors in payload words, bit by bit -/

/-- Bit p of the vector that words carry: bit p mod 64 of word p div 64 (R67). -/
def bitAt (ws : List Word) (p : Nat) : Bool := (ws.getD (p / 64) 0).getLsbD (p % 64)

/-- The words carry the vector `v` in canonical form (R67). -/
def Carries {w : Nat} (ws : List Word) (v : BitVec w) : Prop :=
  ws.length = nw w ∧ (∀ p < w, v.getLsbD p = bitAt ws p) ∧ ∀ p, w ≤ p → bitAt ws p = false

/-- The words have the length of a vector of width `w` and a bit at a position ≥ `w` set (R67). -/
def NonCanonical (w : Nat) (ws : List Word) : Prop :=
  ws.length = nw w ∧ ∃ p, w ≤ p ∧ bitAt ws p = true

/-- An operand width of R101. -/
def WidthOk (w : Nat) : Prop := 1 ≤ w ∧ w ≤ nmax

/-- Index `i` is the lowest set bit of `v` (R106). -/
def IsLowestSetBit {w : Nat} (v : BitVec w) (i : Nat) : Prop :=
  v.getLsbD i = true ∧ ∀ j < i, v.getLsbD j = false

/-! ### Header words, in the spec's numbers (R61) -/

/-- OP, WA and X of a header word as numbers (R61, R63). -/
def opOf (cw : Word) : Nat := cw.toNat / 2 ^ 56
/-- See `opOf`. -/
def waOf (cw : Word) : Nat := cw.toNat / 2 ^ 40 % 2 ^ 16
/-- See `opOf`. -/
def xOf (cw : Word) : Nat := cw.toNat / 2 ^ 24 % 2 ^ 16

/-- The header word of its fields, the reserved field 0 (R61). -/
def headerNumber (op wa x cnt data : Nat) : Word :=
  BitVec.ofNat 64 (op * 2 ^ 56 + wa * 2 ^ 40 + x * 2 ^ 24 + cnt * 2 ^ 8 + data)

/-- PayloadLen of R68 by opcode number; none for an OP that is in no row of R65. -/
def payloadLenOf (cw : Word) : Option Nat :=
  if opOf cw ∈ [0x01, 0x05, 0x06, 0x07] then some (nw (waOf cw))
  else if opOf cw ∈ [0x02, 0x03, 0x04] then some (nw (waOf cw) + nw (xOf cw))
  else if opOf cw = 0x10 then some (xOf cw)
  else if opOf cw = 0x20 then some (3 * nw (waOf cw + 2))
  else if opOf cw ∈ [0x21, 0x22, 0x23, 0x24] then some 0
  else if opOf cw = 0x30 then some (2 * nw (waOf cw))
  else if opOf cw = 0x31 then some (nw (waOf cw) + 1)
  else none

/-- Every header of opcode `op` that is `bad`, followed by its payload of `len` words, is answered with E_ILLEGAL: header
and payload are consumed and nothing else changes (R66, R201). -/
def IllegalWhen (op : Nat) (len : Word → Nat) (bad : Word → Prop) : Prop :=
  ∀ (s : State) (cw : Word) (ws : List Word), s.cmdPort = cw :: ws → opOf cw = op → len cw ≤ ws.length → bad cw →
    step s = .next (sent { s with cmdPort := ws.drop (len cw) } 7 0 0 [])

/-! ### Streams of input bits -/

/-- The first `n` bits of a host buffer, each byte lowest bit first (R42, R85). -/
def bitsOf (buf : List Byte) (n : Nat) : List Bool :=
  (List.range n).map fun i => (buf.getD (i / 8) 0).getLsbD (i % 8)

/-- From register `r` the bits are consumed one at a time by the rule of R143, no bit meeting a zero register, and leave the
register `r'`. -/
inductive Consumes {n : Nat} (p0 p1 : BitVec n) : BitVec n → List Bool → BitVec n → Prop
  | nil (r : BitVec n) : Consumes p0 p1 r [] r
  | cons (r r' : BitVec n) (b : Bool) (bs : List Bool) (i : Nat) :
      IsLowestSetBit r i → Consumes p0 p1 ((r >>> (i + 1)) ^^^ (if b then p1 else p0)) bs r' →
      Consumes p0 p1 r (b :: bs) r'

/-- The commands run one after another from `s` and leave `t`. -/
inductive RunsTo : List Instr → State → State → Prop
  | nil (s : State) : RunsTo [] s s
  | cons (i : Instr) (is : List Instr) (s t u : State) :
      exec i s = .next t → RunsTo is t u → RunsTo (i :: is) s u

/-- A CONFIG command. -/
def isConfig : Instr → Bool
  | .config .. => true
  | _ => false

/-- An UPDATE command. -/
def isUpdate : Instr → Bool
  | .update .. => true
  | _ => false

/-- A command of the datapath, the builder or the orbit enumerator (R33). -/
def isPure (i : Instr) : Bool :=
  match i.opcode with
  | .shr | .xor | .and | .eq | .lsb | .narrow | .widen | .buildpoly | .lfstep | .orbit => true
  | .config | .update | .digest | .reset | .rdstatus => false

/-- The response words sent between two states. -/
def newWords (before after : State) : List Word := after.respPort.drop before.respPort.length

/-! ### Orbits -/

/-- The value of the seed's orbit after `k` steps of R171. -/
def orbitValue {n : Nat} (p : BitVec n) (k : Nat) : BitVec n := (fun v => lfStep v p)^[k] (BitVec.ofNat n 1)

/-- The orbit returns to the seed after `c` steps, for the first time. -/
def HasPeriod {n : Nat} (p : BitVec n) (c : Nat) : Prop :=
  1 ≤ c ∧ orbitValue p c = BitVec.ofNat n 1 ∧ ∀ k, 1 ≤ k → k < c → orbitValue p k ≠ BitVec.ofNat n 1

/-- The words are COUNT = `c` and then the first `c` values of the orbit in visit order, each in its vector words (R70,
R172). -/
def OrbitWords {n : Nat} (p : BitVec n) (c : Nat) (words : List Word) : Prop :=
  ∃ vs : List (List Word), words = BitVec.ofNat 64 c :: vs.flatten ∧ vs.length = c ∧
    ∀ k, (h : k < vs.length) → Carries vs[k] (orbitValue p k)

end Sys2Proof.Safety
end

