-- ==== Sys2Proof/Certificates/Slice0/Obligations.lean ====
section
/-! DEFINITION. The statements for the provers, from the spec's numbered rules. Each docstring names its rule.
Status numbers are those of R200: 0 OK, 1 E_ZERO_SCAN, 2 E_WIDTH, 3 E_DEGREE, 4 E_POLY, 5 E_RANGE, 6 E_NOCFG, 7 E_ILLEGAL,
8 S_BUDGET. -/

open Sys2Proof Sys2Proof.Machine Sys2Proof.Safety

/-! ### Encoding and decoding -/

/-- R60 to R68: decoding the words of a well-formed command gives it back, whatever words follow. -/
def Obligations.DecodeOfEncodeIsTheCommand : Prop :=
  ∀ (i : Instr) (rest : List Word), i.wellFormed = true → decode (encode i ++ rest) = .command i rest

/-- R66, R68: words that decode to a command are that command's encoding and the rest, and the command is well formed. -/
def Obligations.DecodedWordsAreTheEncoding : Prop :=
  ∀ (ws rest : List Word) (i : Instr), decode ws = .command i rest → i.wellFormed = true ∧ ws = encode i ++ rest

/-- R87: the header words the spec lists, and the response header that DIGEST sends for a 64-bit digest. -/
def Obligations.SpecHeaderWords : Prop :=
  (∀ a b c : List Word,
    (Instr.shr 66 17 a).header = 0x0100420011000000 ∧
    (Instr.xor 66 66 a b).header = 0x0200420042000000 ∧
    (Instr.xor 66 64 a b).header = 0x0200420040000000 ∧
    (Instr.and 130 130 a b).header = 0x0300820082000000 ∧
    (Instr.eq 66 66 a b).header = 0x0400420042000000 ∧
    (Instr.lsb 66 a).header = 0x0500420000000000 ∧
    (Instr.narrow 66 64 a).header = 0x0600420040000000 ∧
    (Instr.widen 64 66 a).header = 0x0700400042000000 ∧
    encode (.buildpoly 66 1 [65]) = [0x1000420001000000, 0x0000000000000041] ∧
    encode (.buildpoly 3 0 []) = [0x1000030000000000] ∧
    (Instr.config 64 a b c).header = 0x2000400000000000 ∧
    ((Instr.config 64 a b c).wellFormed = true → (Instr.config 64 a b c).payload.length = 6) ∧
    encode (.update 8 0xAA) = [0x21000000000008AA] ∧
    encode (.update 3 0xAA) = [0x21000000000003AA] ∧
    encode (.update 1 1) = [0x2100000000000101] ∧
    encode .digest = [0x2200000000000000] ∧
    encode .reset = [0x2300000000000000] ∧
    encode .rdstatus = [0x2400000000000000] ∧
    (Instr.lfstep 3 a b).header = 0x3000030000000000 ∧
    (∀ budget, (Instr.orbit 3 a budget).header = 0x3100030000000000)) ∧
  ∀ (s : State) (e : Engine), s.engine = some e → e.d = 64 →
    ∃ digest : Word, (∀ i < 64, digest.getLsbD i = e.reg.getLsbD i) ∧
      exec .digest s = .next { s with respPort := s.respPort ++ [0x0000400000000000, digest] }

/-- R61, R87: words written out from the spec's encodings decode to the commands they stand for, one of each family. -/
def Obligations.WrittenWordsDecode : Prop :=
  decode [0x0100420011000000, 0xFFFF0000FFFF0000, 0] = .command (.shr 66 17 [0xFFFF0000FFFF0000, 0]) [] ∧
  decode [0x1000030002000000, 0, 1] = .command (.buildpoly 3 2 [0, 1]) [] ∧
  decode [0x2000010000000000, 3, 1, 7, 5] = .command (.config 1 [3] [1] [7]) [5] ∧
  decode [0x21000000000003AA] = .command (.update 3 0xAA) [] ∧
  decode [0x3100030000000000, 5, 100] = .command (.orbit 3 [5] 100) []

/-- R61: the places of the header fields; a header whose reserved field is not 0 is no command. -/
def Obligations.HeaderFieldsArePlaced : Prop :=
  (∀ cw : Word,
    (opField cw).toNat = cw.toNat / 2 ^ 56 ∧
    (waField cw).toNat = cw.toNat / 2 ^ 40 % 2 ^ 16 ∧
    (xField cw).toNat = cw.toNat / 2 ^ 24 % 2 ^ 16 ∧
    (rsvField cw).toNat = cw.toNat / 2 ^ 12 % 2 ^ 12 ∧
    (cntField cw).toNat = cw.toNat / 2 ^ 8 % 2 ^ 4 ∧
    (dataField cw).toNat = cw.toNat % 2 ^ 8) ∧
  ∀ (cw : Word) (ws rest : List Word) (i : Instr), decode (cw :: ws) = .command i rest → rsvField cw = 0

/-- R65: the OP value of every command, and every other OP value is illegal. -/
def Obligations.OpcodeMapIsTheSpecs : Prop :=
  (∀ i : Instr, opOf i.header =
    match i with
    | .shr .. => 0x01 | .xor .. => 0x02 | .and .. => 0x03 | .eq .. => 0x04 | .lsb .. => 0x05 | .narrow .. => 0x06
    | .widen .. => 0x07 | .buildpoly .. => 0x10 | .config .. => 0x20 | .update .. => 0x21 | .digest => 0x22
    | .reset => 0x23 | .rdstatus => 0x24 | .lfstep .. => 0x30 | .orbit .. => 0x31) ∧
  ∀ (s : State) (cw : Word) (ws : List Word), s.cmdPort = cw :: ws →
    opOf cw ∉ [0x01, 0x02, 0x03, 0x04, 0x05, 0x06, 0x07, 0x10, 0x20, 0x21, 0x22, 0x23, 0x24, 0x30, 0x31] →
    step s = .next (sent { s with cmdPort := ws } 7 0 0 [])

/-- R68: a known-opcode command consumes its header and exactly PayloadLen(CW) words, whatever the outcome. -/
def Obligations.KnownOpcodeConsumesItsPayload : Prop :=
  ∀ (s : State) (cw : Word) (ws : List Word) (n : Nat), s.cmdPort = cw :: ws → payloadLenOf cw = some n → n ≤ ws.length →
    ∃ t, step s = .next t ∧ t.cmdPort = ws.drop n

/-- R66, the whole rule: the decode check. An unknown OP and a reserved or unused field that is not 0 are E_ILLEGAL; with
neither, the opcode's own rule runs; DATA bits at positions ≥ CNT of an UPDATE are ignored. -/
def Obligations.DecodeCheckComesFirst : Prop :=
  (∀ (s : State) (cw : Word) (ws : List Word), s.cmdPort = cw :: ws → payloadLenOf cw = none →
    step s = .next (sent { s with cmdPort := ws } 7 0 0 [])) ∧
  (∀ (s : State) (cw : Word) (ws : List Word) (n : Nat), s.cmdPort = cw :: ws → payloadLenOf cw = some n →
    n ≤ ws.length →
    (cw.toNat / 2 ^ 12 % 2 ^ 12 ≠ 0 ∨
      (opOf cw ≠ 0x21 ∧ cw.toNat % 2 ^ 12 ≠ 0) ∨
      (opOf cw ∈ [0x05, 0x20, 0x21, 0x22, 0x23, 0x24, 0x30, 0x31] ∧ xOf cw ≠ 0) ∨
      (opOf cw ∈ [0x21, 0x22, 0x23, 0x24] ∧ waOf cw ≠ 0)) →
    step s = .next (sent { s with cmdPort := ws.drop n } 7 0 0 [])) ∧
  (∀ (s : State) (cw : Word) (ws : List Word) (n : Nat), s.cmdPort = cw :: ws → payloadLenOf cw = some n →
    n ≤ ws.length →
    cw.toNat / 2 ^ 12 % 2 ^ 12 = 0 → (opOf cw ≠ 0x21 → cw.toNat % 2 ^ 12 = 0) →
    (opOf cw ∈ [0x05, 0x20, 0x21, 0x22, 0x23, 0x24, 0x30, 0x31] → xOf cw = 0) →
    (opOf cw ∈ [0x21, 0x22, 0x23, 0x24] → waOf cw = 0) →
    ∃ i : Instr, encode i = cw :: ws.take n ∧ step s = exec i { s with cmdPort := ws.drop n }) ∧
  ∀ (cnt : BitVec 4) (d d' : BitVec 8) (s : State), (∀ j < cnt.toNat, d.getLsbD j = d'.getLsbD j) →
    exec (.update cnt d) s = exec (.update cnt d') s

/-- R44, R66: when the words on the command port decode to a command, a step consumes them and is `exec` of that command. -/
def Obligations.StepRunsTheDecodedCommand : Prop :=
  (∀ (s : State) (i : Instr) (rest : List Word), decode s.cmdPort = .command i rest →
    step s = exec i { s with cmdPort := rest }) ∧
  ∀ (s : State) (i : Instr) (rest : List Word), i.wellFormed = true → s.cmdPort = encode i ++ rest →
    step s = exec i { s with cmdPort := rest }

/-- The model's choice (log entry 4; R243, U11 give no move): with no whole command on the port the unit waits, unchanged. -/
def Obligations.UnitWaitsForAWholeCommand : Prop :=
  (∀ s : State, s.cmdPort = [] → step s = .next s) ∧
  ∀ (s : State) (cw : Word) (ws : List Word) (n : Nat), s.cmdPort = cw :: ws → payloadLenOf cw = some n →
    ws.length < n → step s = .next s

/-- R69: `respond` sends RW = S·2^56 + RWIDTH·2^40 + SCALAR, then the words; RW[39:32] is 0. The codes are those of R200. -/
def Obligations.ResponseHeaderLayout : Prop :=
  ∀ (w : BitVec 16) (sc : BitVec 32) (ws : List Word) (s : State),
    respond .ok w sc ws s = .next (sent s 0 w.toNat sc.toNat ws) ∧
    respond .eZeroScan w sc ws s = .next (sent s 1 w.toNat sc.toNat ws) ∧
    respond .eWidth w sc ws s = .next (sent s 2 w.toNat sc.toNat ws) ∧
    respond .eDegree w sc ws s = .next (sent s 3 w.toNat sc.toNat ws) ∧
    respond .ePoly w sc ws s = .next (sent s 4 w.toNat sc.toNat ws) ∧
    respond .eRange w sc ws s = .next (sent s 5 w.toNat sc.toNat ws) ∧
    respond .eNoCfg w sc ws s = .next (sent s 6 w.toNat sc.toNat ws) ∧
    respond .eIllegal w sc ws s = .next (sent s 7 w.toNat sc.toNat ws) ∧
    respond .sBudget w sc ws s = .next (sent s 8 w.toNat sc.toNat ws) ∧
    ∀ st < 9, (rw st w.toNat sc.toNat).toNat / 2 ^ 56 = st ∧
      (rw st w.toNat sc.toNat).toNat / 2 ^ 40 % 2 ^ 16 = w.toNat ∧
      (rw st w.toNat sc.toNat).toNat / 2 ^ 32 % 2 ^ 8 = 0 ∧
      (rw st w.toNat sc.toNat).toNat % 2 ^ 32 = sc.toNat

/-! ### Vectors -/

/-- R67: payload words of the right number carry a vector exactly when no bit at a position ≥ W is set, and the words of a
result vector carry it in canonical form. -/
def Obligations.VectorCrossesInWords : Prop :=
  ∀ (w : Nat),
    (∀ (ws : List Word) (v : BitVec w), ws.length = nw w → (readVec w ws = some v ↔ Carries ws v)) ∧
    (∀ ws : List Word, ws.length = nw w → (readVec w ws = none ↔ NonCanonical w ws)) ∧
    ∀ v : BitVec w, Carries (vecWords v) v

/-- R23: EQ on canonical vectors of one legal width answers 1 exactly when every word is equal, which is the same as equality
of the numbers. -/
def Obligations.EqualityIsWordWise : Prop :=
  ∀ (w : BitVec 16) (a b : List Word) (va vb : BitVec w.toNat) (s : State), WidthOk w.toNat → Carries a va →
    Carries b vb →
    (Answers (.eq w w a b) s 0 0 1 [] ↔ ∀ j < nw w.toNat, a[j]? = b[j]?) ∧
    (Answers (.eq w w a b) s 0 0 0 [] ↔ ∃ j < nw w.toNat, a[j]? ≠ b[j]?) ∧
    (Answers (.eq w w a b) s 0 0 1 [] ∨ Answers (.eq w w a b) s 0 0 0 []) ∧
    (a = b ↔ va = vb)

/-! ### The datapath -/

/-- R102, the whole rule of SHR. -/
def Obligations.ShrShiftsRightLogically : Prop :=
  (∀ (w k : BitVec 16) (a : List Word), encode (.shr w k a) = headerNumber 0x01 w.toNat k.toNat 0 0 :: a) ∧
  (∀ (w k : BitVec 16) (a : List Word) (v : BitVec w.toNat) (s : State), WidthOk w.toNat → Carries a v →
    k.toNat ≤ w.toNat →
    ∃ (r : BitVec w.toNat) (words : List Word),
      (∀ i < w.toNat, r.getLsbD i = (decide (i + k.toNat < w.toNat) && v.getLsbD (i + k.toNat))) ∧
      Carries words r ∧ Answers (.shr w k a) s 0 w.toNat 0 words) ∧
  (∀ (w k : BitVec 16) (a : List Word) (v : BitVec w.toNat) (s : State), WidthOk w.toNat → Carries a v →
    w.toNat < k.toNat → Answers (.shr w k a) s 5 0 0 []) ∧
  (∀ (w k : BitVec 16) (a : List Word) (s : State), ¬WidthOk w.toNat ∨ NonCanonical w.toNat a →
    Answers (.shr w k a) s 2 0 0 []) ∧
  IllegalWhen 0x01 (fun cw => nw (waOf cw)) (fun cw => cw.toNat % 2 ^ 24 ≠ 0)

/-- R103, the whole rule of XOR, with the checks of R101. -/
def Obligations.XorIsBitwise : Prop :=
  (∀ (wa wb : BitVec 16) (a b : List Word),
    encode (.xor wa wb a b) = headerNumber 0x02 wa.toNat wb.toNat 0 0 :: (a ++ b)) ∧
  (∀ (w : BitVec 16) (a b : List Word) (va vb : BitVec w.toNat) (s : State), WidthOk w.toNat → Carries a va →
    Carries b vb →
    ∃ (r : BitVec w.toNat) (words : List Word),
      (∀ i < w.toNat, r.getLsbD i = (va.getLsbD i != vb.getLsbD i)) ∧
      Carries words r ∧ Answers (.xor w w a b) s 0 w.toNat 0 words) ∧
  (∀ (wa wb : BitVec 16) (a b : List Word) (s : State),
    ¬WidthOk wa.toNat ∨ ¬WidthOk wb.toNat ∨ wa ≠ wb ∨ NonCanonical wa.toNat a ∨ NonCanonical wb.toNat b →
    Answers (.xor wa wb a b) s 2 0 0 []) ∧
  IllegalWhen 0x02 (fun cw => nw (waOf cw) + nw (xOf cw)) (fun cw => cw.toNat % 2 ^ 24 ≠ 0)

/-- R104, the whole rule of AND, with the checks of R101. -/
def Obligations.AndIsBitwise : Prop :=
  (∀ (wa wb : BitVec 16) (a b : List Word),
    encode (.and wa wb a b) = headerNumber 0x03 wa.toNat wb.toNat 0 0 :: (a ++ b)) ∧
  (∀ (w : BitVec 16) (a b : List Word) (va vb : BitVec w.toNat) (s : State), WidthOk w.toNat → Carries a va →
    Carries b vb →
    ∃ (r : BitVec w.toNat) (words : List Word),
      (∀ i < w.toNat, r.getLsbD i = (va.getLsbD i && vb.getLsbD i)) ∧
      Carries words r ∧ Answers (.and w w a b) s 0 w.toNat 0 words) ∧
  (∀ (wa wb : BitVec 16) (a b : List Word) (s : State),
    ¬WidthOk wa.toNat ∨ ¬WidthOk wb.toNat ∨ wa ≠ wb ∨ NonCanonical wa.toNat a ∨ NonCanonical wb.toNat b →
    Answers (.and wa wb a b) s 2 0 0 []) ∧
  IllegalWhen 0x03 (fun cw => nw (waOf cw) + nw (xOf cw)) (fun cw => cw.toNat % 2 ^ 24 ≠ 0)

/-- R105, the whole rule of EQ, with the checks of R101: vectors of different widths are rejected, never reported
unequal. -/
def Obligations.EqComparesVectors : Prop :=
  (∀ (wa wb : BitVec 16) (a b : List Word),
    encode (.eq wa wb a b) = headerNumber 0x04 wa.toNat wb.toNat 0 0 :: (a ++ b)) ∧
  (∀ (w : BitVec 16) (a b : List Word) (va vb : BitVec w.toNat) (s : State), WidthOk w.toNat → Carries a va →
    Carries b vb →
    ((∀ i < w.toNat, va.getLsbD i = vb.getLsbD i) → Answers (.eq w w a b) s 0 0 1 []) ∧
    ∀ i < w.toNat, va.getLsbD i ≠ vb.getLsbD i → Answers (.eq w w a b) s 0 0 0 []) ∧
  (∀ (wa wb : BitVec 16) (a b : List Word) (s : State),
    ¬WidthOk wa.toNat ∨ ¬WidthOk wb.toNat ∨ wa ≠ wb ∨ NonCanonical wa.toNat a ∨ NonCanonical wb.toNat b →
    Answers (.eq wa wb a b) s 2 0 0 []) ∧
  IllegalWhen 0x04 (fun cw => nw (waOf cw) + nw (xOf cw)) (fun cw => cw.toNat % 2 ^ 24 ≠ 0)

/-- R106, the whole rule of LSB: every non-zero vector has a lowest set bit below W, which is the answer; the zero vector is
E_ZERO_SCAN and STATUS.ZF is not set. -/
def Obligations.LsbFindsTheLowestSetBit : Prop :=
  (∀ (w : BitVec 16) (a : List Word), encode (.lsb w a) = headerNumber 0x05 w.toNat 0 0 0 :: a) ∧
  (∀ (w : BitVec 16) (a : List Word) (v : BitVec w.toNat) (s : State), WidthOk w.toNat → Carries a v →
    v ≠ 0 → ∃ i < w.toNat, IsLowestSetBit v i ∧ Answers (.lsb w a) s 0 0 i []) ∧
  (∀ (w : BitVec 16) (a : List Word) (s : State), WidthOk w.toNat → Carries a (0 : BitVec w.toNat) →
    Answers (.lsb w a) s 1 0 0 []) ∧
  (∀ (w : BitVec 16) (a : List Word) (s : State), ¬WidthOk w.toNat ∨ NonCanonical w.toNat a →
    Answers (.lsb w a) s 2 0 0 []) ∧
  IllegalWhen 0x05 (fun cw => nw (waOf cw)) (fun cw => cw.toNat % 2 ^ 40 ≠ 0)

/-- R107, the whole rule of NARROW. -/
def Obligations.NarrowKeepsTheLowBits : Prop :=
  (∀ (w m : BitVec 16) (a : List Word), encode (.narrow w m a) = headerNumber 0x06 w.toNat m.toNat 0 0 :: a) ∧
  (∀ (w m : BitVec 16) (a : List Word) (v : BitVec w.toNat) (s : State), WidthOk w.toNat → Carries a v →
    1 ≤ m.toNat → m.toNat < w.toNat →
    ∃ (r : BitVec m.toNat) (words : List Word), (∀ i < m.toNat, r.getLsbD i = v.getLsbD i) ∧
      Carries words r ∧ Answers (.narrow w m a) s 0 m.toNat 0 words) ∧
  (∀ (w m : BitVec 16) (a : List Word) (s : State),
    ¬WidthOk w.toNat ∨ NonCanonical w.toNat a ∨ ¬(1 ≤ m.toNat ∧ m.toNat < w.toNat) →
    Answers (.narrow w m a) s 2 0 0 []) ∧
  IllegalWhen 0x06 (fun cw => nw (waOf cw)) (fun cw => cw.toNat % 2 ^ 24 ≠ 0)

/-- R108, the whole rule of WIDEN. -/
def Obligations.WidenZeroExtends : Prop :=
  (∀ (w m : BitVec 16) (a : List Word), encode (.widen w m a) = headerNumber 0x07 w.toNat m.toNat 0 0 :: a) ∧
  (∀ (w m : BitVec 16) (a : List Word) (v : BitVec w.toNat) (s : State), WidthOk w.toNat → Carries a v →
    w.toNat < m.toNat → m.toNat ≤ nmax →
    ∃ (r : BitVec m.toNat) (words : List Word),
      (∀ i < m.toNat, r.getLsbD i = (decide (i < w.toNat) && v.getLsbD i)) ∧
      Carries words r ∧ Answers (.widen w m a) s 0 m.toNat 0 words) ∧
  (∀ (w m : BitVec 16) (a : List Word) (s : State),
    ¬WidthOk w.toNat ∨ NonCanonical w.toNat a ∨ ¬(w.toNat < m.toNat ∧ m.toNat ≤ nmax) →
    Answers (.widen w m a) s 2 0 0 []) ∧
  IllegalWhen 0x07 (fun cw => nw (waOf cw)) (fun cw => cw.toNat % 2 ^ 24 ≠ 0)

/-- R109: v xor v is 0, v xor 0 is v, and two shifts are one shift by the sum, for a + b ≤ W (D7); for a + b > W the single
shift is rejected. `words` is what the first command answered and the host sent back. -/
def Obligations.ShiftAndXorLaws : Prop :=
  (∀ (w : BitVec 16) (a z : List Word) (v : BitVec w.toNat) (s : State), WidthOk w.toNat → Carries a v →
    Carries z (0 : BitVec w.toNat) →
    Answers (.xor w w a a) s 0 w.toNat 0 z ∧ Answers (.xor w w a z) s 0 w.toNat 0 a) ∧
  ∀ (w k l kl : BitVec 16) (a words : List Word) (v : BitVec w.toNat) (s s' : State), WidthOk w.toNat →
    Carries a v → kl.toNat = k.toNat + l.toNat → Answers (.shr w k a) s 0 w.toNat 0 words →
    (k.toNat + l.toNat ≤ w.toNat →
      ∃ result, Answers (.shr w l words) s' 0 w.toNat 0 result ∧ Answers (.shr w kl a) s' 0 w.toNat 0 result) ∧
    (w.toNat < k.toNat + l.toNat → Answers (.shr w kl a) s' 5 0 0 [])

/-! ### The polynomial builder -/

/-- R131, the whole rule of BUILDPOLY: bit 0 and the bit N−1−d of each degree d are set, and no other. -/
def Obligations.BuildpolySetsTheDegreeBits : Prop :=
  (∀ (n l : BitVec 16) (ds : List Word), encode (.buildpoly n l ds) = headerNumber 0x10 n.toNat l.toNat 0 0 :: ds) ∧
  (∀ (n l : BitVec 16) (ds : List Word) (s : State), WidthOk n.toNat → (∀ d ∈ ds, d.toNat < n.toNat) →
    ∃ (p : BitVec n.toNat) (words : List Word),
      (∀ i < n.toNat, p.getLsbD i = true ↔ i = 0 ∨ ∃ d ∈ ds, i = n.toNat - 1 - d.toNat) ∧
      Carries words p ∧ Answers (.buildpoly n l ds) s 0 n.toNat 0 words) ∧
  (∀ (n l : BitVec 16) (ds : List Word) (s : State), WidthOk n.toNat → (∃ d ∈ ds, n.toNat ≤ d.toNat) →
    Answers (.buildpoly n l ds) s 3 0 0 []) ∧
  (∀ (n l : BitVec 16) (ds : List Word) (s : State), ¬WidthOk n.toNat → Answers (.buildpoly n l ds) s 2 0 0 []) ∧
  IllegalWhen 0x10 xOf (fun cw => cw.toNat % 2 ^ 24 ≠ 0)

/-- R134 (and R132, R133): the builder's outputs are exactly the vectors with bit 0 set, and the empty set gives 1. -/
def Obligations.BuilderOutputsAreThePolynomials : Prop :=
  (∀ (n l : BitVec 16) (ds : List Word) (s : State) (words : List Word), Answers (.buildpoly n l ds) s 0 n.toNat 0 words →
    ∃ p : BitVec n.toNat, Carries words p ∧ p.getLsbD 0 = true) ∧
  (∀ (n : BitVec 16) (p : BitVec n.toNat) (words : List Word) (s : State), WidthOk n.toNat → Carries words p →
    p.getLsbD 0 = true →
    ∃ (l : BitVec 16) (ds : List Word), ds.length = l.toNat ∧ (∀ d ∈ ds, p.getLsbD (n.toNat - 1 - d.toNat) = true) ∧
      Answers (.buildpoly n l ds) s 0 n.toNat 0 words) ∧
  ∀ (n : BitVec 16) (words : List Word) (s : State), WidthOk n.toNat → Carries words (BitVec.ofNat n.toNat 1) →
    Answers (.buildpoly n 0 []) s 0 n.toNat 0 words

/-! ### The hash engine -/

/-- R142, the whole rule of CONFIG: the engine is replaced in one step, or nothing changes. -/
def Obligations.ConfigBuildsTheEngine : Prop :=
  (∀ (d : BitVec 16) (a b c : List Word),
    encode (.config d a b c) = headerNumber 0x20 d.toNat 0 0 0 :: (a ++ b ++ c)) ∧
  (∀ (d : BitVec 16) (a b c : List Word) (init p0 p1 : BitVec (d.toNat + 2)) (s : State),
    1 ≤ d.toNat → d.toNat + 2 ≤ nmax → Carries a init → Carries b p0 → Carries c p1 →
    p0.getLsbD 0 = true → p1.getLsbD 0 = true →
    exec (.config d a b c) s = .next (sent { s with
      engine := some { d := d, init := init, poly0 := p0, poly1 := p1, reg := init }, zf := false } 0 0 0 [])) ∧
  (∀ (d : BitVec 16) (a b c : List Word) (init p0 p1 : BitVec (d.toNat + 2)) (s : State),
    1 ≤ d.toNat → d.toNat + 2 ≤ nmax → Carries a init → Carries b p0 → Carries c p1 →
    p0.getLsbD 0 = false ∨ p1.getLsbD 0 = false → Answers (.config d a b c) s 4 0 0 []) ∧
  (∀ (d : BitVec 16) (a b c : List Word) (s : State),
    ¬(1 ≤ d.toNat ∧ d.toNat + 2 ≤ nmax) ∨ NonCanonical (d.toNat + 2) a ∨ NonCanonical (d.toNat + 2) b ∨
      NonCanonical (d.toNat + 2) c → Answers (.config d a b c) s 2 0 0 []) ∧
  IllegalWhen 0x20 (fun cw => 3 * nw (waOf cw + 2)) (fun cw => cw.toNat % 2 ^ 40 ≠ 0)

/-- R143: the per-bit transition shifts right by one more than the lowest set bit's index, then XORs in the polynomial. It
has no value at 0, and a register with only bit N−1 set leaves the polynomial. -/
def Obligations.HashStepShiftsPastTheLowestSetBit : Prop :=
  (∀ (n : Nat) (r p : BitVec n), r ≠ 0 →
    ∃ (i : Nat) (r' : BitVec n), IsLowestSetBit r i ∧ i < n ∧ hstep r p = some r' ∧
      ∀ j < n, r'.getLsbD j = ((decide (j + (i + 1) < n) && r.getLsbD (j + (i + 1))) != p.getLsbD j)) ∧
  (∀ (n : Nat) (p : BitVec n), hstep 0 p = none) ∧
  ∀ (n : Nat) (p : BitVec (n + 1)), hstep (BitVec.twoPow (n + 1) n) p = some p

/-- R144, R145, the whole rules of UPDATE. The bits DATA[0] to DATA[CNT−1] are consumed in order; a zero register at the bit
about to be consumed keeps the bits before it, sets ZF and reports their count. One of the two always happens. -/
def Obligations.UpdateConsumesItsBits : Prop :=
  (∀ (cnt : BitVec 4) (data : BitVec 8),
    encode (.update cnt data) = [headerNumber 0x21 0 0 cnt.toNat data.toNat]) ∧
  (∀ (cnt : BitVec 4) (data : BitVec 8) (s : State) (e : Engine) (r : BitVec (e.d.toNat + 2)), s.engine = some e →
    cnt.toNat ≤ 8 → Consumes e.poly0 e.poly1 e.reg (bitsOf [data] cnt.toNat) r →
    exec (.update cnt data) s = .next (sent { s with engine := some { e with reg := r } } 0 0 cnt.toNat [])) ∧
  (∀ (cnt : BitVec 4) (data : BitVec 8) (s : State) (e : Engine) (k : Nat), s.engine = some e →
    cnt.toNat ≤ 8 → k < cnt.toNat → Consumes e.poly0 e.poly1 e.reg (bitsOf [data] k) 0 →
    exec (.update cnt data) s =
      .next (sent { s with engine := some { e with reg := 0 }, zf := true } 1 0 k [])) ∧
  (∀ (cnt : BitVec 4) (data : BitVec 8) (e : Engine),
    (∃ r, Consumes e.poly0 e.poly1 e.reg (bitsOf [data] cnt.toNat) r) ∨
      ∃ k < cnt.toNat, Consumes e.poly0 e.poly1 e.reg (bitsOf [data] k) 0) ∧
  (∀ (cnt : BitVec 4) (data : BitVec 8) (s : State), s.engine = none → Answers (.update cnt data) s 6 0 0 []) ∧
  (∀ (cnt : BitVec 4) (data : BitVec 8) (s : State) (e : Engine), s.engine = some e → 8 < cnt.toNat →
    Answers (.update cnt data) s 5 0 0 []) ∧
  IllegalWhen 0x21 (fun _ => 0) (fun cw => cw.toNat / 2 ^ 12 % 2 ^ 44 ≠ 0)

/-- R145, R29: while REG is 0, every UPDATE with 1 to 8 bits fails at its first bit with SCALAR 0 and leaves REG 0, one with no
bit succeeds, DIGEST gives 0, and no command but RESET and CONFIG changes the engine. -/
def Obligations.ZeroRegisterFailsEveryUpdate : Prop :=
  ∀ (s : State) (e : Engine), s.engine = some e → e.reg = 0 →
    (∀ (cnt : BitVec 4) (data : BitVec 8), 1 ≤ cnt.toNat → cnt.toNat ≤ 8 →
      exec (.update cnt data) s = .next (sent { s with zf := true } 1 0 0 [])) ∧
    (∀ data : BitVec 8, Answers (.update 0 data) s 0 0 0 []) ∧
    (∃ words, Answers .digest s 0 e.d.toNat 0 words ∧ Carries words (0 : BitVec e.d.toNat)) ∧
    ∀ (i : Instr) (t : State), exec i s = .next t → i ≠ .reset → isConfig i = false → t.engine = s.engine

/-- R146, the whole rule of DIGEST: the low D bits of REG, no state written. -/
def Obligations.DigestReturnsTheLowBits : Prop :=
  encode .digest = [headerNumber 0x22 0 0 0 0] ∧
  (∀ (s : State) (e : Engine), s.engine = some e →
    ∃ (r : BitVec e.d.toNat) (words : List Word), (∀ i < e.d.toNat, r.getLsbD i = e.reg.getLsbD i) ∧
      Carries words r ∧ Answers .digest s 0 e.d.toNat 0 words) ∧
  (∀ s : State, s.engine = none → Answers .digest s 6 0 0 []) ∧
  IllegalWhen 0x22 (fun _ => 0) (fun cw => cw.toNat % 2 ^ 56 ≠ 0)

/-- R147, the whole rule of RESET: REG ← INIT, the parameters and STATUS (ZF too) unchanged. -/
def Obligations.ResetLoadsInit : Prop :=
  encode .reset = [headerNumber 0x23 0 0 0 0] ∧
  (∀ (s : State) (e : Engine), s.engine = some e →
    exec .reset s = .next (sent { s with engine := some { e with reg := e.init } } 0 0 0 [])) ∧
  (∀ s : State, s.engine = none → Answers .reset s 6 0 0 []) ∧
  IllegalWhen 0x23 (fun _ => 0) (fun cw => cw.toNat % 2 ^ 56 ≠ 0)

/-- R148, R30: RDSTATUS returns STATUS, bit 0 CFG, bit 1 ZF, bits 31:16 D; 0 with no engine and ZF clear. It works with no
engine configured. -/
def Obligations.RdstatusReturnsStatus : Prop :=
  encode .rdstatus = [headerNumber 0x24 0 0 0 0] ∧
  (∀ (s : State) (e : Engine), s.engine = some e →
    Answers .rdstatus s 0 0 (e.d.toNat * 2 ^ 16 + (if s.zf then 2 else 0) + 1) []) ∧
  (∀ s : State, s.engine = none → Answers .rdstatus s 0 0 (if s.zf then 2 else 0) []) ∧
  IllegalWhen 0x24 (fun _ => 0) (fun cw => cw.toNat % 2 ^ 56 ≠ 0)

/-- R206: UPDATE, DIGEST and RESET with no engine configured answer E_NOCFG, whatever their operands, and change nothing. -/
def Obligations.HashCommandsNeedAnEngine : Prop :=
  ∀ s : State, s.engine = none →
    (∀ (cnt : BitVec 4) (data : BitVec 8), Answers (.update cnt data) s 6 0 0 []) ∧
    Answers .digest s 6 0 0 [] ∧ Answers .reset s 6 0 0 []

/-- R149: splitting a bit string at any point, byte-aligned or not, and feeding the two parts in order leaves the same engine
and the same ZF as feeding the whole. That the parts are fed by the UPDATEBITS expansion, run by the host on an idle port, is
the model's choice (log entry 15). -/
def Obligations.StreamingIsAssociative : Prop :=
  ∀ (s : State) (e : Engine) (bufA bufB buf : List Byte) (a b : Nat) (isA isB is : List Instr),
    s.engine = some e → s.cmdPort = [] →
    updateBitsExpansion bufA a = some isA → updateBitsExpansion bufB b = some isB →
    updateBitsExpansion buf (a + b) = some is →
    bitsOf buf (a + b) = bitsOf bufA a ++ bitsOf bufB b →
    ∃ s1 s2 t : State, runExpansion isA s = .next s1 ∧ runExpansion isB s1 = .next s2 ∧ runExpansion is s = .next t ∧
      t.engine = s2.engine ∧ t.zf = s2.zf

/-- R85: UPDATEBIT, UPDATEBITS and UPDATEBYTES. The expansion consumes exactly the first `bitcount` bits of the buffer, each
byte lowest bit first; the host stops at the first response that is not OK. That a short buffer has no expansion, and that the
host runs it on an idle port, are the model's choices (log entry 15). -/
def Obligations.UpdateBitsConsumesTheBuffer : Prop :=
  (∀ (buf : List Byte) (bitcount : Nat),
    (updateBitsExpansion buf bitcount).isSome = true ↔ (bitcount + 7) / 8 ≤ buf.length) ∧
  (∀ (buf : List Byte) (count : Nat), updateBytesExpansion buf count = updateBitsExpansion buf (count * 8)) ∧
  (updateBitExpansion false = [.update 1 0] ∧ updateBitExpansion true = [.update 1 1]) ∧
  (∀ (i : Instr) (is : List Instr) (s t : State), issue i s = .next t →
    (newestStatus s t ≠ some 0 → runExpansion (i :: is) s = .next t) ∧
    (newestStatus s t = some 0 → runExpansion (i :: is) s = runExpansion is t)) ∧
  (∀ (buf : List Byte) (bitcount : Nat) (is : List Instr), updateBitsExpansion buf bitcount = some is →
    is.length = (bitcount + 7) / 8 ∧
    (∀ j < bitcount / 8, is[j]? = some (.update 8 (buf.getD j 0))) ∧
    (bitcount % 8 ≠ 0 →
      is[bitcount / 8]? = some (.update (BitVec.ofNat 4 (bitcount % 8)) (buf.getD (bitcount / 8) 0)))) ∧
  ∀ (s : State) (e : Engine) (buf : List Byte) (bitcount : Nat) (is : List Instr), s.engine = some e → s.cmdPort = [] →
    updateBitsExpansion buf bitcount = some is →
    (∀ r, Consumes e.poly0 e.poly1 e.reg (bitsOf buf bitcount) r →
      ∃ t, runExpansion is s = .next t ∧ t.engine = some { e with reg := r } ∧ t.zf = s.zf ∧ t.cmdPort = []) ∧
    ∀ k < bitcount, Consumes e.poly0 e.poly1 e.reg (bitsOf buf k) 0 →
      ∃ t, runExpansion is s = .next t ∧ t.engine = some { e with reg := 0 } ∧ t.zf = true ∧ t.cmdPort = []

/-- R150: RESET after any commands but CONFIG restores the digest to that of the empty input, the low D bits of INIT. -/
def Obligations.ResetRestoresTheEmptyDigest : Prop :=
  ∀ (s : State) (e : Engine) (is : List Instr), s.engine = some e → (∀ i ∈ is, isConfig i = false) →
    ∃ (t u : State) (words : List Word), RunsTo is s t ∧ exec .reset t = .next u ∧
      u.engine = some { e with reg := e.init } ∧ Answers .digest u 0 e.d.toNat 0 words ∧
      Carries words (e.init.setWidth e.d.toNat)

/-- R151: when a zero register can arise. -/
def Obligations.ZeroRegisterArises : Prop :=
  (∀ (n : Nat) (r p : BitVec n) (i : Nat), IsLowestSetBit r i →
    (hstep r p = some 0 ↔ r >>> (i + 1) = p)) ∧
  (∀ (n : Nat) (r p : BitVec n) (i : Nat), IsLowestSetBit r i → p.getLsbD 0 = true → hstep r p = some 0 →
    r.getLsbD (i + 1) = true) ∧
  hstep (0b011#3) (0b001#3) = some 0

/-! ### The orbit enumerator -/

/-- R171, the whole rule of LFSTEP. -/
def Obligations.LfstepIsOneLfsrStep : Prop :=
  (∀ (n : BitVec 16) (a b : List Word), encode (.lfstep n a b) = headerNumber 0x30 n.toNat 0 0 0 :: (a ++ b)) ∧
  (∀ (n : BitVec 16) (a b : List Word) (v p : BitVec n.toNat) (s : State), WidthOk n.toNat → Carries a v →
    Carries b p → p.getLsbD 0 = true →
    ∃ (r : BitVec n.toNat) (words : List Word),
      (∀ i < n.toNat, r.getLsbD i =
        ((decide (i + 1 < n.toNat) && v.getLsbD (i + 1)) != (v.getLsbD 0 && p.getLsbD i))) ∧
      Carries words r ∧ Answers (.lfstep n a b) s 0 n.toNat 0 words) ∧
  (∀ (n : BitVec 16) (a b : List Word) (v p : BitVec n.toNat) (s : State), WidthOk n.toNat → Carries a v →
    Carries b p → p.getLsbD 0 = false → Answers (.lfstep n a b) s 4 0 0 []) ∧
  (∀ (n : BitVec 16) (a b : List Word) (s : State),
    ¬WidthOk n.toNat ∨ NonCanonical n.toNat a ∨ NonCanonical n.toNat b → Answers (.lfstep n a b) s 2 0 0 []) ∧
  IllegalWhen 0x30 (fun cw => 2 * nw (waOf cw)) (fun cw => cw.toNat % 2 ^ 40 ≠ 0)

/-- R172, the whole rule of ORBIT. The orbit's values are those of repeated LFSTEP from 1; OK with COUNT = the period where it
is within the budget, else S_BUDGET with COUNT = the budget. -/
def Obligations.OrbitListsTheOrbit : Prop :=
  (∀ (n : BitVec 16) (a : List Word) (b : Word), encode (.orbit n a b) = headerNumber 0x31 n.toNat 0 0 0 :: (a ++ [b])) ∧
  (∀ (n : BitVec 16) (a : List Word) (b : Word) (p : BitVec n.toNat) (s : State) (c : Nat), WidthOk n.toNat →
    Carries a p → p.getLsbD 0 = true → HasPeriod p c → c ≤ b.toNat →
    ∃ words, OrbitWords p c words ∧ Answers (.orbit n a b) s 0 n.toNat 0 words) ∧
  (∀ (n : BitVec 16) (a : List Word) (b : Word) (p : BitVec n.toNat) (s : State), WidthOk n.toNat →
    Carries a p → p.getLsbD 0 = true → b ≠ 0 →
    (∀ k, 1 ≤ k → k ≤ b.toNat → orbitValue p k ≠ BitVec.ofNat n.toNat 1) →
    ∃ words, OrbitWords p b.toNat words ∧ Answers (.orbit n a b) s 8 n.toNat 0 words) ∧
  (∀ (n : BitVec 16) (a : List Word) (b : Word) (s : State), ¬WidthOk n.toNat ∨ NonCanonical n.toNat a →
    Answers (.orbit n a b) s 2 0 0 []) ∧
  (∀ (n : BitVec 16) (a : List Word) (p : BitVec n.toNat) (s : State), WidthOk n.toNat → Carries a p →
    Answers (.orbit n a 0) s 5 0 0 []) ∧
  (∀ (n : BitVec 16) (a : List Word) (b : Word) (p : BitVec n.toNat) (s : State), WidthOk n.toNat → Carries a p →
    b ≠ 0 → p.getLsbD 0 = false → Answers (.orbit n a b) s 4 0 0 []) ∧
  IllegalWhen 0x31 (fun cw => nw (waOf cw) + 1) (fun cw => cw.toNat % 2 ^ 40 ≠ 0)

/-- R173: on the values below 2^m (m the bit length of P) the step is a permutation, so the seed's orbit closes, with no
repeat before the seed, and ORBIT ends with OK whenever the budget reaches 2^m − 1. -/
def Obligations.EveryOrbitCloses : Prop :=
  ∀ (n m : Nat) (p : BitVec n), p.getLsbD 0 = true → 2 ^ (m - 1) ≤ p.toNat → p.toNat < 2 ^ m →
    (∀ v : BitVec n, v.toNat < 2 ^ m → (lfStep v p).toNat < 2 ^ m) ∧
    (∀ u v : BitVec n, u.toNat < 2 ^ m → v.toNat < 2 ^ m → lfStep u p = lfStep v p → u = v) ∧
    (∃ c, HasPeriod p c ∧ ∀ j k, j < c → k < c → orbitValue p j = orbitValue p k → j = k) ∧
    ∀ (w : BitVec 16) (q : BitVec w.toNat) (a : List Word) (b : Word) (s : State), w.toNat = n → q.toNat = p.toNat →
      WidthOk w.toNat → Carries a q → 2 ^ m - 1 ≤ b.toNat →
      ∃ words, Answers (.orbit w a b) s 0 n 0 words

/-- R174: 1 ≤ period ≤ 2^m − 1 ≤ 2^N − 1, every value of the orbit is non-zero and below 2^m, and a period of 2^N − 1 needs
P[N−1] = 1. -/
def Obligations.PeriodIsBounded : Prop :=
  ∀ (n m c : Nat) (p : BitVec n), p.getLsbD 0 = true → 2 ^ (m - 1) ≤ p.toNat → p.toNat < 2 ^ m → HasPeriod p c →
    c ≤ 2 ^ m - 1 ∧ 2 ^ m - 1 ≤ 2 ^ n - 1 ∧
    (∀ k, orbitValue p k ≠ 0 ∧ (orbitValue p k).toNat < 2 ^ m) ∧
    (c = 2 ^ n - 1 → p.getLsbD (n - 1) = true)

/-- R175, C3: the orbit length need not divide 2^N − 1. Polynomials 0b111 and 0b011 at N = 3 have the periods 4 and 3, and
neither divides 7. -/
def Obligations.PeriodNeedNotDivide : Prop :=
  HasPeriod (0b111#3) 4 ∧ HasPeriod (0b011#3) 3 ∧ ¬(4 ∣ 2 ^ 3 - 1) ∧ ¬(3 ∣ 2 ^ 3 - 1) ∧
  ∀ s : State, Answers (.orbit 3 [7] 100) s 0 3 0 [4, 1, 7, 4, 2] ∧ Answers (.orbit 3 [3] 100) s 0 3 0 [3, 1, 3, 2]

/-! ### The whole machine -/

/-- R27, R30: every step keeps the state legal: a configured engine has 1 ≤ D ≤ NMAX − 2 and both polynomials with bit 0
set, and ZF is set only while an engine exists. -/
def Obligations.StepKeepsTheStateLegal : Prop :=
  ∀ s t : State, stateLegal s = true → step s = .next t → stateLegal t = true

/-- R35, R230: after power-on CFG, ZF and D are 0, no engine state exists, STATUS reads 0, and the state is legal. The empty
ports are the model's (log entries 3, 5 and 10). -/
def Obligations.PowerOnStateIsTheSpecs : Prop :=
  State.reset.cfg = false ∧ State.reset.zf = false ∧ State.reset.d = 0 ∧ State.reset.engine = none ∧
  State.reset.statusReg = 0 ∧ stateLegal State.reset = true ∧
  ∀ s : State, s.powerOn = State.reset

/-- R210, R244: every command ends and no error stops the unit. That a run never stops rests also on two log entries: the
step that waits on an empty or short port is the model's choice (log entry 4), and the step after an unknown OP goes on with
the next word, as R71 says where U10 would be stuck (log entry 6). -/
def Obligations.RunsNeverStop : Prop := ∀ s : State, NeverStops s

/-- R60: a command has exactly one response, a header word and its result words, sent after every earlier response. With
R200, the code is one of the nine. With R70, an error has RWIDTH 0 and no result words, and SCALAR 0 unless it is
UPDATE's E_ZERO_SCAN; the number of result words follows from RWIDTH, and from COUNT for ORBIT. -/
def Obligations.EachCommandHasOneResponse : Prop :=
  (∀ (s : State) (i : Instr) (rest : List Word), decode s.cmdPort = .command i rest →
    ∃ (t : State) (st w sc : Nat) (words : List Word), step s = .next t ∧
      t.respPort = s.respPort ++ rw st w sc :: words ∧ st ≤ 8 ∧ w < 2 ^ 16 ∧ sc < 2 ^ 32 ∧
      (st ≠ 0 → st ≠ 8 → w = 0 ∧ words = [] ∧ (sc = 0 ∨ st = 1 ∧ isUpdate i = true)) ∧
      (i.opcode ≠ .orbit → words.length = nw w ∧ st ≠ 8) ∧
      (i.opcode = .orbit → st = 0 ∨ st = 8 →
        ∃ count : Word, words.head? = some count ∧ words.length = 1 + count.toNat * nw w)) ∧
  ∀ (s : State) (rest : List Word), decode s.cmdPort = .unknownOpcode rest ∨ decode s.cmdPort = .reservedFieldSet rest →
    ∃ t : State, step s = .next t ∧ t.respPort = s.respPort ++ [rw 7 0 0]

/-- R210, D33: a command that answers an error changes no state, but for UPDATE's E_ZERO_SCAN, which keeps the bits consumed
before it and sets ZF. -/
def Obligations.FailedCommandChangesNothing : Prop :=
  ∀ (s t : State) (i : Instr) (st : BitVec 8), exec i s = .next t → newestStatus s t = some st → st ≠ 0 → st ≠ 8 →
    t = { s with respPort := t.respPort } ∨
    (st = 1 ∧ isUpdate i = true ∧ ∃ e, s.engine = some e ∧
      t = { s with engine := some { e with reg := 0 }, zf := true, respPort := t.respPort })

/-- R26: INIT, POLY0, POLY1 and D change only when a CONFIG replaces the whole engine. -/
def Obligations.ParametersChangeOnlyByConfig : Prop :=
  (∀ (s t : State) (i : Instr), exec i s = .next t → isConfig i = false →
    (s.engine = none → t.engine = none) ∧
    ∀ e, s.engine = some e → ∃ r, t.engine = some { e with reg := r }) ∧
  ∀ (s t : State) (d : BitVec 16) (a b c : List Word), exec (.config d a b c) s = .next t →
    t.engine = s.engine ∨
    ∃ init p0 p1 : BitVec (d.toNat + 2), readVec (d.toNat + 2) a = some init ∧
      readVec (d.toNat + 2) b = some p0 ∧ readVec (d.toNat + 2) c = some p1 ∧
      t.engine = some { d := d, init := init, poly0 := p0, poly1 := p1, reg := init }

/-- R31, R30: no command changes ZF, except that UPDATE sets it when it answers E_ZERO_SCAN and a successful CONFIG clears
it. -/
def Obligations.ZfChangesOnlyByUpdateAndConfig : Prop :=
  ∀ (s t : State) (i : Instr), exec i s = .next t → t.zf ≠ s.zf →
    (t.zf = true ∧ isUpdate i = true ∧ newestStatus s t = some 1) ∨
    (t.zf = false ∧ isConfig i = true ∧ newestStatus s t = some 0)

/-- R33, R100, R170, R176: the datapath, builder and orbit commands neither read nor write the unit's state. Each has one
response, the same in every state, and changes nothing else. -/
def Obligations.PureCommandsIgnoreTheState : Prop :=
  ∀ i : Instr, isPure i = true →
    ∃ (st w sc : Nat) (words : List Word), ∀ s : State, Answers i s st w sc words

/-- R45: every command but UPDATE is idempotent, the same command again giving the same response and the same engine and ZF;
UPDATE is not. -/
def Obligations.OnlyUpdateIsNotIdempotent : Prop :=
  (∀ (i : Instr) (s : State), isUpdate i = false →
    ∃ t u : State, exec i s = .next t ∧ exec i t = .next u ∧ u.engine = t.engine ∧ u.zf = t.zf ∧
      newWords t u = newWords s t) ∧
  ∃ (cnt : BitVec 4) (data : BitVec 8) (s t u : State), exec (.update cnt data) s = .next t ∧
    exec (.update cnt data) t = .next u ∧ u.engine ≠ t.engine

/-- R32: the headroom bits are hidden from DIGEST and feed later digests: engines that agree on the low D bits of REG have one
digest, and two engines whose digests agree can give different digests after the same next input. -/
def Obligations.HeadroomBitsAreHidden : Prop :=
  (∀ (s : State) (e : Engine) (r : BitVec (e.d.toNat + 2)), s.engine = some e →
    (∀ i < e.d.toNat, r.getLsbD i = e.reg.getLsbD i) →
    ∃ words, Answers .digest s 0 e.d.toNat 0 words ∧
      Answers .digest { s with engine := some { e with reg := r } } 0 e.d.toNat 0 words) ∧
  ∃ (s : State) (e : Engine) (r : BitVec (e.d.toNat + 2)) (t u : State) (words words' : List Word),
    stateLegal s = true ∧ s.engine = some e ∧ (∀ i < e.d.toNat, r.getLsbD i = e.reg.getLsbD i) ∧
    exec (.update 1 0) s = .next t ∧
    exec (.update 1 0) { s with engine := some { e with reg := r } } = .next u ∧
    Answers .digest t 0 e.d.toNat 0 words ∧ Answers .digest u 0 e.d.toNat 0 words' ∧ words ≠ words'

/-- R209: where several errors apply, the first of the spec's order is reported. E_ILLEGAL before all: no command runs. Then
E_NOCFG before E_RANGE; E_WIDTH before E_RANGE, E_DEGREE, E_POLY and E_ZERO_SCAN; E_RANGE before E_POLY and
E_ZERO_SCAN. No command can raise two others of them. -/
def Obligations.ErrorsFollowTheSpecsPriority : Prop :=
  (∀ (s : State) (cw : Word) (ws : List Word) (n : Nat), s.cmdPort = cw :: ws → payloadLenOf cw = some n →
    n ≤ ws.length → cw.toNat / 2 ^ 12 % 2 ^ 12 ≠ 0 →
    step s = .next (sent { s with cmdPort := ws.drop n } 7 0 0 [])) ∧
  (∀ (cnt : BitVec 4) (data : BitVec 8) (s : State), s.engine = none → 8 < cnt.toNat →
    Answers (.update cnt data) s 6 0 0 []) ∧
  (∀ (w k : BitVec 16) (a : List Word) (s : State), ¬WidthOk w.toNat ∨ NonCanonical w.toNat a → w.toNat < k.toNat →
    Answers (.shr w k a) s 2 0 0 []) ∧
  (∀ (w : BitVec 16) (a : List Word) (s : State), ¬WidthOk w.toNat ∨ NonCanonical w.toNat a →
    (∀ p < w.toNat, bitAt a p = false) → Answers (.lsb w a) s 2 0 0 []) ∧
  (∀ (n l : BitVec 16) (ds : List Word) (s : State), ¬WidthOk n.toNat → (∃ d ∈ ds, n.toNat ≤ d.toNat) →
    Answers (.buildpoly n l ds) s 2 0 0 []) ∧
  (∀ (d : BitVec 16) (a b c : List Word) (s : State),
    ¬(1 ≤ d.toNat ∧ d.toNat + 2 ≤ nmax) ∨ NonCanonical (d.toNat + 2) a ∨ NonCanonical (d.toNat + 2) b ∨
      NonCanonical (d.toNat + 2) c → bitAt b 0 = false ∨ bitAt c 0 = false → Answers (.config d a b c) s 2 0 0 []) ∧
  (∀ (n : BitVec 16) (a b : List Word) (s : State),
    ¬WidthOk n.toNat ∨ NonCanonical n.toNat a ∨ NonCanonical n.toNat b → bitAt b 0 = false →
    Answers (.lfstep n a b) s 2 0 0 []) ∧
  (∀ (n : BitVec 16) (a : List Word) (b : Word) (s : State), ¬WidthOk n.toNat ∨ NonCanonical n.toNat a →
    b = 0 ∨ bitAt a 0 = false → Answers (.orbit n a b) s 2 0 0 []) ∧
  (∀ (cnt : BitVec 4) (data : BitVec 8) (s : State) (e : Engine), s.engine = some e → e.reg = 0 → 8 < cnt.toNat →
    Answers (.update cnt data) s 5 0 0 []) ∧
  ∀ (n : BitVec 16) (a : List Word) (p : BitVec n.toNat) (s : State), WidthOk n.toNat → Carries a p →
    p.getLsbD 0 = false → Answers (.orbit n a 0) s 5 0 0 []

/-! ### Text -/

/-- R86: a W-bit vector renders as 16·⌈W/64⌉ hexadecimal digits, most significant first. -/
def Obligations.RenderingIsBigEndianHex : Prop :=
  ∀ (w : Nat) (v : BitVec w), (render v).length = 16 * nw w ∧
    (render v).foldl (fun a c => 16 * a + (digitValue 16 c).getD 0) 0 = v.toNat ∧
    ∀ c ∈ render v, (digitValue 16 c).isSome = true

/-- R81 to R83, R85: a line assembles to the words of R81 with exactly its literals as fields and payload, when every one of
them fits, and is an error otherwise, never truncated. Those words decode to one well-formed command. -/
def Obligations.AssemblerNeverTruncates : Prop :=
  (∀ (l : AsmLine) (ws : List Word), assemble l = some ws → (∀ v, l ≠ .word v) →
    ∃ i, l.instr = some i ∧ i.wellFormed = true ∧ decode ws = .command i []) ∧
  (∀ (w k a : Nat) (ws : List Word), assemble (.shr w a k) = some ws ↔ w < 2 ^ 16 ∧ k < 2 ^ 16 ∧ a < 2 ^ w ∧
    ∃ va, Carries va (BitVec.ofNat w a) ∧ ws = headerNumber 0x01 w k 0 0 :: va) ∧
  (∀ (wa wb a b : Nat) (ws : List Word), assemble (.xor wa wb a b) = some ws ↔
    wa < 2 ^ 16 ∧ wb < 2 ^ 16 ∧ a < 2 ^ wa ∧ b < 2 ^ wb ∧
    ∃ va vb, Carries va (BitVec.ofNat wa a) ∧ Carries vb (BitVec.ofNat wb b) ∧
      ws = headerNumber 0x02 wa wb 0 0 :: (va ++ vb)) ∧
  (∀ (wa wb a b : Nat) (ws : List Word), assemble (.and wa wb a b) = some ws ↔
    wa < 2 ^ 16 ∧ wb < 2 ^ 16 ∧ a < 2 ^ wa ∧ b < 2 ^ wb ∧
    ∃ va vb, Carries va (BitVec.ofNat wa a) ∧ Carries vb (BitVec.ofNat wb b) ∧
      ws = headerNumber 0x03 wa wb 0 0 :: (va ++ vb)) ∧
  (∀ (wa wb a b : Nat) (ws : List Word), assemble (.eq wa wb a b) = some ws ↔
    wa < 2 ^ 16 ∧ wb < 2 ^ 16 ∧ a < 2 ^ wa ∧ b < 2 ^ wb ∧
    ∃ va vb, Carries va (BitVec.ofNat wa a) ∧ Carries vb (BitVec.ofNat wb b) ∧
      ws = headerNumber 0x04 wa wb 0 0 :: (va ++ vb)) ∧
  (∀ (w a : Nat) (ws : List Word), assemble (.lsb w a) = some ws ↔ w < 2 ^ 16 ∧ a < 2 ^ w ∧
    ∃ va, Carries va (BitVec.ofNat w a) ∧ ws = headerNumber 0x05 w 0 0 0 :: va) ∧
  (∀ (w m a : Nat) (ws : List Word), assemble (.narrow w m a) = some ws ↔ w < 2 ^ 16 ∧ m < 2 ^ 16 ∧ a < 2 ^ w ∧
    ∃ va, Carries va (BitVec.ofNat w a) ∧ ws = headerNumber 0x06 w m 0 0 :: va) ∧
  (∀ (w m a : Nat) (ws : List Word), assemble (.widen w m a) = some ws ↔ w < 2 ^ 16 ∧ m < 2 ^ 16 ∧ a < 2 ^ w ∧
    ∃ va, Carries va (BitVec.ofNat w a) ∧ ws = headerNumber 0x07 w m 0 0 :: va) ∧
  (∀ (n : Nat) (ds : List Nat) (ws : List Word), assemble (.buildpoly n ds) = some ws ↔
    n < 2 ^ 16 ∧ ds.length < 2 ^ 16 ∧ (∀ d ∈ ds, d < 2 ^ 64) ∧
      ws = headerNumber 0x10 n ds.length 0 0 :: ds.map (BitVec.ofNat 64)) ∧
  (∀ (d i p q : Nat) (ws : List Word), assemble (.config d i p q) = some ws ↔
    d < 2 ^ 16 ∧ i < 2 ^ (d + 2) ∧ p < 2 ^ (d + 2) ∧ q < 2 ^ (d + 2) ∧
    ∃ vi vp vq, Carries vi (BitVec.ofNat (d + 2) i) ∧ Carries vp (BitVec.ofNat (d + 2) p) ∧
      Carries vq (BitVec.ofNat (d + 2) q) ∧ ws = headerNumber 0x20 d 0 0 0 :: (vi ++ vp ++ vq)) ∧
  (∀ (cnt data : Nat) (ws : List Word), assemble (.update cnt data) = some ws ↔
    cnt < 2 ^ 4 ∧ data < 2 ^ 8 ∧ ws = [headerNumber 0x21 0 0 cnt data]) ∧
  (assemble .digest = some [headerNumber 0x22 0 0 0 0] ∧ assemble .reset = some [headerNumber 0x23 0 0 0 0] ∧
    assemble .rdstatus = some [headerNumber 0x24 0 0 0 0]) ∧
  (∀ (n v p : Nat) (ws : List Word), assemble (.lfstep n v p) = some ws ↔ n < 2 ^ 16 ∧ v < 2 ^ n ∧ p < 2 ^ n ∧
    ∃ vv vp, Carries vv (BitVec.ofNat n v) ∧ Carries vp (BitVec.ofNat n p) ∧
      ws = headerNumber 0x30 n 0 0 0 :: (vv ++ vp)) ∧
  (∀ (n p b : Nat) (ws : List Word), assemble (.orbit n p b) = some ws ↔ n < 2 ^ 16 ∧ p < 2 ^ n ∧ b < 2 ^ 64 ∧
    ∃ vp, Carries vp (BitVec.ofNat n p) ∧ ws = headerNumber 0x31 n 0 0 0 :: (vp ++ [BitVec.ofNat 64 b])) ∧
  (∀ (b : Nat) (ws : List Word), assemble (.updatebit b) = some ws ↔ b < 2 ∧ ws = [headerNumber 0x21 0 0 1 b]) ∧
  (∀ (v : Nat) (ws : List Word), assemble (.word v) = some ws ↔ v < 2 ^ 64 ∧ ws = [BitVec.ofNat 64 v]) ∧
  ∀ w v : Nat, (2 ^ w ≤ v → vectorOf w v = none) ∧
    (v < 2 ^ w → ∃ ws, vectorOf w v = some ws ∧ Carries ws (BitVec.ofNat w v))

/-- R80, R81, R83, R85: a source line of each syntax is read as its mnemonic and its operand values, in every number base, in
either case of the mnemonic, with `_` between digit groups and a comment after `;`. That UPDATEBIT is a source mnemonic, and that
blanks may stand around operands, are the model's choices (log entry 13). -/
def Obligations.SourceLinesAreRead : Prop :=
  parseLine "SHR 66, 0xFFFF_0000, 0b10001".toList = some (some (.shr 66 0xFFFF0000 17)) ∧
  parseLine "xor 66, 1, 2 ; one width".toList = some (some (.xor 66 66 1 2)) ∧
  parseLine "XOR 66/64, 1, 2".toList = some (some (.xor 66 64 1 2)) ∧
  parseLine "AND 3, 5, 6".toList = some (some (.and 3 3 5 6)) ∧
  parseLine "and 3/4, 5, 6".toList = some (some (.and 3 4 5 6)) ∧
  parseLine "Eq 3, 5, 6".toList = some (some (.eq 3 3 5 6)) ∧
  parseLine "EQ 3/4, 5, 6".toList = some (some (.eq 3 4 5 6)) ∧
  parseLine "LSB 66, 0x2_0000000000000000".toList = some (some (.lsb 66 0x20000000000000000)) ∧
  parseLine "NARROW 66, 64, 5".toList = some (some (.narrow 66 64 5)) ∧
  parseLine "WIDEN 64, 66, 5".toList = some (some (.widen 64 66 5)) ∧
  parseLine ("BUILDPOLY 3, ".toList ++ [openBrace] ++ "0, 1".toList ++ [closeBrace]) = some (some (.buildpoly 3 [0, 1])) ∧
  parseLine ("BUILDPOLY 3, ".toList ++ [openBrace, closeBrace]) = some (some (.buildpoly 3 [])) ∧
  parseLine "CONFIG 64, 0xFFFF0000FFFF0000, 0x1, 0x3".toList = some (some (.config 64 0xFFFF0000FFFF0000 1 3)) ∧
  parseLine "UPDATE 8, 0xAA".toList = some (some (.update 8 0xAA)) ∧
  parseLine "DIGEST".toList = some (some .digest) ∧
  parseLine "RESET".toList = some (some .reset) ∧
  parseLine "RDSTATUS".toList = some (some .rdstatus) ∧
  parseLine "LFSTEP 3, 0b101, 0b111".toList = some (some (.lfstep 3 5 7)) ∧
  parseLine "ORBIT 3, 0b101, 100".toList = some (some (.orbit 3 5 100)) ∧
  parseLine "UPDATEBIT 1".toList = some (some (.updatebit 1)) ∧
  parseLine ".word 0xFF00000000000000".toList = some (some (.word 0xFF00000000000000)) ∧
  parseLine "; a comment".toList = some none

/-! ### After an unknown OP -/

/-- R71, R66: after a header with an unknown OP only that header is consumed, and the next word is read as a new header, so the
next step answers that word's command, or its own E_ILLEGAL. That the unit goes on is log entry 6: R71 and the vectors V-E1 to
V-E3 say it of the unit, where U10 has a model treat the stream as stuck (see the next statement). -/
def Obligations.WordAfterUnknownOpIsAHeader : Prop :=
  ∀ (s : State) (cw : Word) (ws : List Word), s.cmdPort = cw :: ws → payloadLenOf cw = none →
    step s = .next (sent { s with cmdPort := ws } 7 0 0 []) ∧
    (∀ (i : Instr) (rest : List Word), i.wellFormed = true → ws = encode i ++ rest →
      step (sent { s with cmdPort := ws } 7 0 0 []) = exec i (sent { s with cmdPort := rest } 7 0 0 [])) ∧
    ∀ (cw' : Word) (rest : List Word), ws = cw' :: rest → payloadLenOf cw' = none →
      step (sent { s with cmdPort := ws } 7 0 0 []) = .next (sent (sent { s with cmdPort := rest } 7 0 0 []) 7 0 0 [])

/-- U10, R66, R71: a host's stream follows the unit step by step while every header has a known OP, or the unit waits; the step
that answers an unknown OP loses the frame, and from there no step of the stream is defined. That the stuck stream is the host's
and not the unit's is log entry 6. That the unit waits, unchanged, on an empty port or on a payload still to come, and the stream
with it, is the model's choice (log entry 4); R66, R71 and U10 do not give the wait. -/
def Obligations.UnknownOpLeavesTheStreamStuck : Prop :=
  (∀ (s : State) (cw : Word) (ws : List Word), s.cmdPort = cw :: ws → payloadLenOf cw = none →
    streamStep (.inFrame s) = some (.lost (sent { s with cmdPort := ws } 7 0 0 []))) ∧
  (∀ s : State, streamStep (.lost s) = none) ∧
  (∀ (s : State) (cw : Word) (ws : List Word) (n : Nat), s.cmdPort = cw :: ws → payloadLenOf cw = some n →
    ∃ t, step s = .next t ∧ streamStep (.inFrame s) = some (.inFrame t)) ∧
  ∀ s : State, s.cmdPort = [] → streamStep (.inFrame s) = some (.inFrame s)
end

