-- ==== Sys2Proof/Laws/Operands.lean ====
section
/-! SUPPORT. What the width check, the canonical check and the vector words say, bit by bit. -/

namespace Sys2Proof.Machine

open Sys2Proof.Safety

theorem nmax_ge : 66 ≤ nmax := Nat.le_add_left _ _

theorem nmax_le : nmax ≤ 65535 := by
  have := Config.nmaxOver66.isLt
  unfold nmax; omega

theorem widthInRange_iff (w : Nat) : widthInRange w = true ↔ WidthOk w := by
  simp [widthInRange, WidthOk]

/-- Words enough: a position below the width lies in one of the vector's words. -/
theorem div_lt_nw {w p : Nat} (h : p < w) : p / 64 < nw w := by unfold nw; omega

theorem le_nw_mul (w : Nat) : w ≤ 64 * nw w := by unfold nw; omega

/-! ### The number that words carry -/

theorem bitAt_nil (p : Nat) : bitAt [] p = false := by simp [bitAt]

theorem bitAt_cons (w : Word) (ws : List Word) (p : Nat) :
    bitAt (w :: ws) p = if p < 64 then w.getLsbD p else bitAt ws (p - 64) := by
  unfold bitAt
  split
  · next h => simp [Nat.div_eq_of_lt h, Nat.mod_eq_of_lt h]
  · next h =>
    have hd : p / 64 = (p - 64) / 64 + 1 := by omega
    have hm : (p - 64) % 64 = p % 64 := by omega
    rw [hd, hm, List.getD_cons_succ]

/-- Bit p of the number is bit p mod 64 of word p div 64 (R67). -/
theorem testBit_wordsToNat (ws : List Word) (p : Nat) : (wordsToNat ws).testBit p = bitAt ws p := by
  induction ws generalizing p with
  | nil => simp [wordsToNat, bitAt_nil]
  | cons w ws ih =>
    rw [bitAt_cons, wordsToNat, Nat.add_comm, Nat.testBit_two_pow_mul_add _ w.isLt, ih]
    rfl

/-- The number is below 2^w exactly when no bit at a position ≥ w is set. -/
theorem wordsToNat_lt_iff (w : Nat) (ws : List Word) :
    wordsToNat ws < 2 ^ w ↔ ∀ p, w ≤ p → bitAt ws p = false := by
  constructor
  · intro h p hp
    rw [← testBit_wordsToNat]
    exact Nat.testBit_lt_two_pow (Nat.lt_of_lt_of_le h (Nat.pow_le_pow_right (by decide) hp))
  · intro h
    exact Nat.lt_pow_two_of_testBit _ fun p hp => by rw [testBit_wordsToNat]; exact h p hp

theorem bitAt_beyond {ws : List Word} {p : Nat} (h : 64 * ws.length ≤ p) : bitAt ws p = false := by
  have : ws.length ≤ p / 64 := by omega
  rw [bitAt, List.getD_eq_default _ _ this]; simp

/-! ### The canonical check -/

/-- What the canonical check reads: the vector with the words' bits, when no bit lies beyond the width. -/
theorem readVec_eq_some_iff {w : Nat} {ws : List Word} {v : BitVec w} :
    readVec w ws = some v ↔ (∀ p < w, v.getLsbD p = bitAt ws p) ∧ ∀ p, w ≤ p → bitAt ws p = false := by
  unfold readVec
  split
  · next h =>
    have hc := (wordsToNat_lt_iff w ws).mp h
    constructor
    · intro hv
      obtain rfl := Option.some.inj hv
      refine ⟨fun p hp => ?_, hc⟩
      rw [BitVec.getLsbD_ofNat, testBit_wordsToNat]; simp [hp]
    · rintro ⟨hb, -⟩
      congr 1
      apply BitVec.eq_of_getLsbD_eq
      intro p hp
      rw [BitVec.getLsbD_ofNat, testBit_wordsToNat, hb p hp]; simp [hp]
  · next h =>
    constructor
    · intro hv; simp at hv
    · rintro ⟨-, hc⟩; exact absurd ((wordsToNat_lt_iff w ws).mpr hc) h

theorem readVec_eq_none_iff {w : Nat} {ws : List Word} :
    readVec w ws = none ↔ ∃ p, w ≤ p ∧ bitAt ws p = true := by
  unfold readVec
  split
  · next h =>
    have hc := (wordsToNat_lt_iff w ws).mp h
    constructor
    · intro hv; simp at hv
    · rintro ⟨p, hp, hb⟩; rw [hc p hp] at hb; simp at hb
  · next h =>
    rw [wordsToNat_lt_iff] at h
    simpa using h

theorem readVec_of_carries {w : Nat} {ws : List Word} {v : BitVec w} (h : Carries ws v) : readVec w ws = some v :=
  readVec_eq_some_iff.mpr h.2

theorem readVec_of_nonCanonical {w : Nat} {ws : List Word} (h : NonCanonical w ws) : readVec w ws = none :=
  readVec_eq_none_iff.mpr h.2

/-! ### Vector words -/

@[simp] theorem vecWords_length {w : Nat} (v : BitVec w) : (vecWords v).length = nw w := by simp [vecWords]

/-- Bit p of the words of a vector is bit p of the vector (R67). -/
theorem bitAt_vecWords {w : Nat} (v : BitVec w) (p : Nat) : bitAt (vecWords v) p = v.getLsbD p := by
  by_cases h : p / 64 < nw w
  · have hp : 64 * (p / 64) + p % 64 = p := by omega
    have hm : p % 64 < 64 := Nat.mod_lt _ (by decide)
    simp [bitAt, vecWords, List.getD_eq_getElem?_getD, h, hp, hm]
  · have hw : w ≤ p := by have := le_nw_mul w; omega
    rw [bitAt_beyond (by simp; omega), BitVec.getLsbD_of_ge v p hw]

/-- The words of a vector carry it in canonical form. -/
theorem carries_vecWords {w : Nat} (v : BitVec w) : Carries (vecWords v) v :=
  ⟨vecWords_length v, fun p _ => (bitAt_vecWords v p).symm,
    fun p hp => (bitAt_vecWords v p).trans (BitVec.getLsbD_of_ge v p hp)⟩

/-- Words of one length with the same bits are equal. -/
theorem words_ext {us vs : List Word} (hl : us.length = vs.length) (hb : ∀ p, bitAt us p = bitAt vs p) : us = vs := by
  apply List.ext_getElem hl
  intro j hj hj'
  apply BitVec.eq_of_getLsbD_eq
  intro k hk
  have := hb (64 * j + k)
  have hd : (64 * j + k) / 64 = j := by omega
  have hm : (64 * j + k) % 64 = k := by omega
  simpa [bitAt, hd, hm, List.getD_eq_getElem?_getD, hj, hj'] using this

/-- The words that carry a vector are its vector words. -/
theorem Carries_eq_vecWords {w : Nat} {ws : List Word} {v : BitVec w} (h : Carries ws v) : ws = vecWords v := by
  apply words_ext (by rw [h.1, vecWords_length])
  intro p
  rw [bitAt_vecWords]
  by_cases hp : p < w
  · exact (h.2.1 p hp).symm
  · rw [h.2.2 p (by omega), BitVec.getLsbD_of_ge v p (by omega)]

/-- Of vectors of one width, the words are equal exactly when the numbers are (R23). -/
theorem carries_words_eq_iff {w : Nat} {u v : BitVec w} {us vs : List Word} (hu : Carries us u) (hv : Carries vs v) :
    us = vs ↔ u = v := by
  constructor
  · rintro rfl
    exact Option.some.inj ((readVec_of_carries hu).symm.trans (readVec_of_carries hv))
  · rintro rfl
    rw [Carries_eq_vecWords hu, Carries_eq_vecWords hv]

/-! ### The operand reads -/

theorem readOperand_eq_some {w : BitVec 16} {ws : List Word} {v : BitVec w.toNat} (hw : WidthOk w.toNat)
    (h : Carries ws v) : readOperand w ws = some v := by
  simp [readOperand, (widthInRange_iff _).mpr hw, readVec_of_carries h]

theorem readOperand_eq_none {w : BitVec 16} {ws : List Word} (h : ¬WidthOk w.toNat ∨ NonCanonical w.toNat ws) :
    readOperand w ws = none := by
  unfold readOperand
  split
  · next hw =>
    rcases h with h | h
    · exact absurd ((widthInRange_iff _).mp hw) h
    · exact readVec_of_nonCanonical h
  · rfl

theorem readOperands_eq_some {w : BitVec 16} {a b : List Word} {va vb : BitVec w.toNat} (hw : WidthOk w.toNat)
    (ha : Carries a va) (hb : Carries b vb) : readOperands w w a b = some (va, vb) := by
  simp [readOperands, (widthInRange_iff _).mpr hw, readVec_of_carries ha, readVec_of_carries hb]

theorem readOperands_eq_none {wa wb : BitVec 16} {a b : List Word}
    (h : ¬WidthOk wa.toNat ∨ ¬WidthOk wb.toNat ∨ wa ≠ wb ∨ NonCanonical wa.toNat a ∨ NonCanonical wb.toNat b) :
    readOperands wa wb a b = none := by
  unfold readOperands
  split
  · next hw =>
    simp only [Bool.and_eq_true, widthInRange_iff, beq_iff_eq] at hw
    obtain ⟨⟨ha, hb⟩, rfl⟩ := hw
    rcases h with h | h | h | h | h
    · exact absurd ha h
    · exact absurd hb h
    · exact absurd rfl h
    · simp [readVec_of_nonCanonical h]
    · cases readVec wa.toNat a <;> simp [readVec_of_nonCanonical h]
  · rfl

end Sys2Proof.Machine
end

