-- ==== Sys2Proof/Laws/BitVector.lean ====
section
/-! SUPPORT. The lowest-set-bit scan finds the lowest set bit, and nothing only in the zero vector. -/

namespace Sys2Proof.Machine

open Sys2Proof.Safety

theorem lt_of_isLowestSetBit {w : Nat} {v : BitVec w} {i : Nat} (h : IsLowestSetBit v i) : i < w := by
  by_contra hi
  rw [IsLowestSetBit, BitVec.getLsbD_of_ge v i (by omega)] at h
  simp at h

theorem isLowestSetBit_unique {w : Nat} {v : BitVec w} {i j : Nat} (hi : IsLowestSetBit v i)
    (hj : IsLowestSetBit v j) : i = j := by
  rcases Nat.lt_trichotomy i j with h | h | h
  · have := hj.2 i h; rw [hi.1] at this; simp at this
  · exact h
  · have := hi.2 j h; rw [hj.1] at this; simp at this

theorem lowestSetBit_eq_some_iff {w : Nat} {v : BitVec w} {i : Nat} :
    lowestSetBit v = some i ↔ IsLowestSetBit v i := by
  unfold lowestSetBit IsLowestSetBit
  rw [List.find?_range_eq_some]
  simp only [List.mem_range, Bool.not_eq_true']
  constructor
  · rintro ⟨h, -, hl⟩; exact ⟨h, hl⟩
  · intro h; exact ⟨h.1, lt_of_isLowestSetBit h, h.2⟩

theorem lowestSetBit_eq_none_iff {w : Nat} {v : BitVec w} : lowestSetBit v = none ↔ v = 0 := by
  unfold lowestSetBit
  rw [List.find?_eq_none]
  constructor
  · intro h
    apply BitVec.eq_of_getLsbD_eq
    intro i hi
    simpa using h i (List.mem_range.mpr hi)
  · rintro rfl i -; simp

@[simp] theorem lowestSetBit_zero (w : Nat) : lowestSetBit (0#w) = none := lowestSetBit_eq_none_iff.mpr rfl

/-- Every non-zero vector has a lowest set bit. -/
theorem exists_lowestSetBit {w : Nat} {v : BitVec w} (h : v ≠ 0) : ∃ i, IsLowestSetBit v i := by
  cases hl : lowestSetBit v with
  | none => exact absurd (lowestSetBit_eq_none_iff.mp hl) h
  | some i => exact ⟨i, lowestSetBit_eq_some_iff.mp hl⟩

theorem ne_zero_of_isLowestSetBit {w : Nat} {v : BitVec w} {i : Nat} (h : IsLowestSetBit v i) : v ≠ 0 := by
  rintro rfl
  simp [IsLowestSetBit] at h

end Sys2Proof.Machine
end

