-- ==== Sys2Proof/Laws/State.lean ====
section
/-! SUPPORT. One lemma per field per update of the state, all true by rfl, so that no proof unfolds an update. -/

namespace Sys2Proof.Machine

@[simp] theorem State.send_engine (r : Response) (s : State) : (s.send r).engine = s.engine := rfl
@[simp] theorem State.send_zf (r : Response) (s : State) : (s.send r).zf = s.zf := rfl
@[simp] theorem State.send_cmdPort (r : Response) (s : State) : (s.send r).cmdPort = s.cmdPort := rfl
@[simp] theorem State.send_respPort (r : Response) (s : State) :
    (s.send r).respPort = s.respPort ++ r.toWords := rfl

@[simp] theorem State.setCmdPort_engine (ws : List Word) (s : State) : (s.setCmdPort ws).engine = s.engine := rfl
@[simp] theorem State.setCmdPort_zf (ws : List Word) (s : State) : (s.setCmdPort ws).zf = s.zf := rfl
@[simp] theorem State.setCmdPort_cmdPort (ws : List Word) (s : State) : (s.setCmdPort ws).cmdPort = ws := rfl
@[simp] theorem State.setCmdPort_respPort (ws : List Word) (s : State) :
    (s.setCmdPort ws).respPort = s.respPort := rfl

@[simp] theorem State.setZf_engine (b : Bool) (s : State) : (s.setZf b).engine = s.engine := rfl
@[simp] theorem State.setZf_zf (b : Bool) (s : State) : (s.setZf b).zf = b := rfl
@[simp] theorem State.setZf_cmdPort (b : Bool) (s : State) : (s.setZf b).cmdPort = s.cmdPort := rfl
@[simp] theorem State.setZf_respPort (b : Bool) (s : State) : (s.setZf b).respPort = s.respPort := rfl

@[simp] theorem State.configure_engine (e : Engine) (s : State) : (s.configure e).engine = some e := rfl
@[simp] theorem State.configure_zf (e : Engine) (s : State) : (s.configure e).zf = false := rfl
@[simp] theorem State.configure_cmdPort (e : Engine) (s : State) : (s.configure e).cmdPort = s.cmdPort := rfl
@[simp] theorem State.configure_respPort (e : Engine) (s : State) : (s.configure e).respPort = s.respPort := rfl

@[simp] theorem State.setReg_engine (e : Engine) (r : BitVec (e.d.toNat + 2)) (s : State) :
    (s.setReg e r).engine = some { e with reg := r } := rfl
@[simp] theorem State.setReg_zf (e : Engine) (r : BitVec (e.d.toNat + 2)) (s : State) :
    (s.setReg e r).zf = s.zf := rfl
@[simp] theorem State.setReg_cmdPort (e : Engine) (r : BitVec (e.d.toNat + 2)) (s : State) :
    (s.setReg e r).cmdPort = s.cmdPort := rfl
@[simp] theorem State.setReg_respPort (e : Engine) (r : BitVec (e.d.toNat + 2)) (s : State) :
    (s.setReg e r).respPort = s.respPort := rfl

@[simp] theorem State.hostSend_engine (ws : List Word) (s : State) : (s.hostSend ws).engine = s.engine := rfl
@[simp] theorem State.hostSend_zf (ws : List Word) (s : State) : (s.hostSend ws).zf = s.zf := rfl
@[simp] theorem State.hostSend_cmdPort (ws : List Word) (s : State) :
    (s.hostSend ws).cmdPort = s.cmdPort ++ ws := rfl
@[simp] theorem State.hostSend_respPort (ws : List Word) (s : State) :
    (s.hostSend ws).respPort = s.respPort := rfl

end Sys2Proof.Machine
end

