-- ==== Sys2Proof/Laws/Ops.lean ====
section
/-! SUPPORT. What a response is in the spec's numbers, and what `respond`, `raise` and the decode error answer. -/

namespace Sys2Proof.Machine

open Sys2Proof.Safety

theorem toNat_append_eq {m n : Nat} (x : BitVec m) (y : BitVec n) : (x ++ y).toNat = x.toNat * 2 ^ n + y.toNat := by
  rw [BitVec.toNat_append, ← Nat.shiftLeft_add_eq_or_of_lt y.isLt, Nat.shiftLeft_eq]

/-- The header RW is STATUS·2^56 + RWIDTH·2^40 + SCALAR (R69). -/
theorem header_eq_rw (r : Response) : r.header = rw r.status.code.toNat r.rwidth.toNat r.scalar.toNat := by
  apply BitVec.eq_of_toNat_eq
  have h1 := r.status.code.isLt
  have h2 := r.rwidth.isLt
  have h3 := r.scalar.isLt
  simp only [Response.header, rw, toNat_append_eq, BitVec.toNat_ofNat]
  norm_num at *
  omega

theorem toWords_eq (r : Response) :
    r.toWords = rw r.status.code.toNat r.rwidth.toNat r.scalar.toNat :: r.words := by
  rw [Response.toWords, header_eq_rw]

theorem send_eq_sent (r : Response) (s : State) :
    s.send r = sent s r.status.code.toNat r.rwidth.toNat r.scalar.toNat r.words := by
  rw [State.send, sent, toWords_eq]

/-- `respond` in the spec's numbers. -/
theorem respond_eq (st : Status) (w : BitVec 16) (sc : BitVec 32) (ws : List Word) (s : State) :
    respond st w sc ws s = .next (sent s st.code.toNat w.toNat sc.toNat ws) := by
  rw [respond, send_eq_sent]

/-- `raise` in the spec's numbers. -/
theorem raise_eq (e : Status) (info : BitVec 32) (s : State) :
    raise e info s = .next (sent s e.code.toNat 0 info.toNat []) := by
  rw [raise, respond_eq]; rfl

theorem takeIllegal_eq (rest : List Word) (s : State) :
    takeIllegal rest s = .next (sent { s with cmdPort := rest } 7 0 0 []) := by
  rw [takeIllegal, raise_eq]; rfl

theorem status_code_le (st : Status) : st.code.toNat ≤ 8 := by cases st <;> decide

/-- The number of a response header does not wrap. -/
theorem rw_toNat {st w sc : Nat} (hst : st < 2 ^ 8) (hw : w < 2 ^ 16) (hsc : sc < 2 ^ 32) :
    (rw st w sc).toNat = st * 2 ^ 56 + (w * 2 ^ 40 + sc) := by
  rw [rw, BitVec.toNat_ofNat, Nat.mod_eq_of_lt (by norm_num at *; omega), Nat.add_assoc]

/-- The status is read back from the top byte of a response header. -/
theorem rw_status {st w sc : Nat} (hst : st < 2 ^ 8) (hw : w < 2 ^ 16) (hsc : sc < 2 ^ 32) :
    (rw st w sc).extractLsb' 56 8 = BitVec.ofNat 8 st := by
  apply BitVec.eq_of_toNat_eq
  have hlow : w * 2 ^ 40 + sc < 2 ^ 56 := by norm_num at *; omega
  rw [BitVec.extractLsb'_toNat, rw_toNat hst hw hsc, Nat.shiftRight_eq_div_pow, Nat.mul_comm st,
    Nat.mul_add_div (by decide), Nat.div_eq_of_lt hlow, BitVec.toNat_ofNat, Nat.add_zero]

/-- A meaning that raises an error answers its code, with SCALAR 0 and nothing else changed. -/
theorem answers_of_raise {i : Instr} {s : State} (e : Status) (h : exec i s = raise e 0 s) :
    Answers i s e.code.toNat 0 0 [] := by
  rw [Answers, h, raise_eq]; rfl

/-- A meaning that responds OK answers 0 and that response, nothing else changed. -/
theorem answers_of_respond {i : Instr} {s : State} {w : BitVec 16} {sc : BitVec 32} {ws : List Word}
    (h : exec i s = respond .ok w sc ws s) : Answers i s 0 w.toNat sc.toNat ws := by
  rw [Answers, h, respond_eq]; rfl

@[simp] theorem sent_engine (s : State) (a b c : Nat) (ws : List Word) : (sent s a b c ws).engine = s.engine := rfl
@[simp] theorem sent_zf (s : State) (a b c : Nat) (ws : List Word) : (sent s a b c ws).zf = s.zf := rfl
@[simp] theorem sent_cmdPort (s : State) (a b c : Nat) (ws : List Word) : (sent s a b c ws).cmdPort = s.cmdPort := rfl
@[simp] theorem sent_respPort (s : State) (a b c : Nat) (ws : List Word) :
    (sent s a b c ws).respPort = s.respPort ++ rw a b c :: ws := rfl

end Sys2Proof.Machine
end

