-- ==== Sys2Proof/Laws/Decode.lean ====
section
/-! SUPPORT. A header word is its fields; the row of an opcode; and the header check as "these fields are 0". -/

namespace Sys2Proof

open Sys2Proof.Safety

/-! ### A word and its fields -/

/-- A header word is its fields, side by side (R61). -/
theorem word_eq_fields (cw : Word) :
    cw = opField cw ++ waField cw ++ xField cw ++ rsvField cw ++ cntField cw ++ dataField cw := by
  apply BitVec.eq_of_toNat_eq
  have := cw.isLt
  simp only [Machine.toNat_append_eq, opField, waField, xField, rsvField, cntField, dataField,
    BitVec.extractLsb'_toNat, Nat.shiftRight_eq_div_pow]
  norm_num at *
  omega

section Fields

variable (o : BitVec 8) (wa x : BitVec 16) (r : BitVec 12) (c : BitVec 4) (d : BitVec 8)

theorem opField_append : opField (o ++ wa ++ x ++ r ++ c ++ d) = o := by
  ext i hi; simp [opField]; grind

theorem waField_append : waField (o ++ wa ++ x ++ r ++ c ++ d) = wa := by
  ext i hi; simp [waField]; grind

theorem xField_append : xField (o ++ wa ++ x ++ r ++ c ++ d) = x := by
  ext i hi; simp [xField]; grind

theorem rsvField_append : rsvField (o ++ wa ++ x ++ r ++ c ++ d) = r := by
  ext i hi; simp [rsvField]; grind

theorem cntField_append : cntField (o ++ wa ++ x ++ r ++ c ++ d) = c := by
  ext i hi; simp [cntField]; grind

theorem dataField_append : dataField (o ++ wa ++ x ++ r ++ c ++ d) = d := by
  ext i hi; simp [dataField]; grind

end Fields

section HeaderWord

variable (op : Opcode) (wa x : BitVec 16) (cnt : BitVec 4) (data : BitVec 8)

@[simp] theorem opField_headerWord : opField (headerWord op wa x cnt data) = op.code := opField_append ..
@[simp] theorem waField_headerWord : waField (headerWord op wa x cnt data) = wa := waField_append ..
@[simp] theorem xField_headerWord : xField (headerWord op wa x cnt data) = x := xField_append ..
@[simp] theorem rsvField_headerWord : rsvField (headerWord op wa x cnt data) = 0 := rsvField_append ..
@[simp] theorem cntField_headerWord : cntField (headerWord op wa x cnt data) = cnt := cntField_append ..
@[simp] theorem dataField_headerWord : dataField (headerWord op wa x cnt data) = data := dataField_append ..

/-- A header word in the spec's numbers. -/
theorem headerWord_eq : headerWord op wa x cnt data =
    headerNumber op.code.toNat wa.toNat x.toNat cnt.toNat data.toNat := by
  apply BitVec.eq_of_toNat_eq
  have h1 := op.code.isLt
  have h2 := wa.isLt
  have h3 := x.isLt
  have h4 := cnt.isLt
  have h5 := data.isLt
  simp only [headerWord, headerNumber, Machine.toNat_append_eq, BitVec.toNat_ofNat]
  norm_num at *
  omega

/-- A header word of numbers that fit their fields. -/
theorem headerWord_ofNat {wa x cnt data : Nat} (h1 : wa < 2 ^ 16) (h2 : x < 2 ^ 16) (h3 : cnt < 2 ^ 4) (h4 : data < 2 ^ 8) :
    headerWord op (BitVec.ofNat 16 wa) (BitVec.ofNat 16 x) (BitVec.ofNat 4 cnt) (BitVec.ofNat 8 data) =
      headerNumber op.code.toNat wa x cnt data := by
  rw [headerWord_eq, BitVec.toNat_ofNat, BitVec.toNat_ofNat, BitVec.toNat_ofNat, BitVec.toNat_ofNat,
    Nat.mod_eq_of_lt h1, Nat.mod_eq_of_lt h2, Nat.mod_eq_of_lt h3, Nat.mod_eq_of_lt h4]

end HeaderWord

/-! ### The fields in the spec's numbers -/

theorem opField_toNat (cw : Word) : (opField cw).toNat = opOf cw := by
  have := cw.isLt
  simp only [opField, opOf, BitVec.extractLsb'_toNat, Nat.shiftRight_eq_div_pow]
  norm_num at *; omega

theorem waField_toNat (cw : Word) : (waField cw).toNat = waOf cw := by
  simp only [waField, waOf, BitVec.extractLsb'_toNat, Nat.shiftRight_eq_div_pow]

theorem xField_toNat (cw : Word) : (xField cw).toNat = xOf cw := by
  simp only [xField, xOf, BitVec.extractLsb'_toNat, Nat.shiftRight_eq_div_pow]

theorem rsvField_toNat (cw : Word) : (rsvField cw).toNat = cw.toNat / 2 ^ 12 % 2 ^ 12 := by
  simp only [rsvField, BitVec.extractLsb'_toNat, Nat.shiftRight_eq_div_pow]

theorem cntField_toNat (cw : Word) : (cntField cw).toNat = cw.toNat / 2 ^ 8 % 2 ^ 4 := by
  simp only [cntField, BitVec.extractLsb'_toNat, Nat.shiftRight_eq_div_pow]

theorem dataField_toNat (cw : Word) : (dataField cw).toNat = cw.toNat % 2 ^ 8 := by
  simp only [dataField, BitVec.extractLsb'_toNat, Nat.shiftRight_eq_div_pow, Nat.pow_zero, Nat.div_one]

/-! ### The rows of the opcode table -/

/-- The table's row of an opcode. -/
def rowFor (op : Opcode) : OpRow := (opcodeTable.find? fun r => r.op == op).getD ⟨op, 0, 0⟩

theorem rowFor_op (op : Opcode) : (rowFor op).op = op := by cases op <;> rfl

/-- A header with the OP value of an opcode finds that opcode's row (R65). -/
theorem rowOf_of_code {cw : Word} {op : Opcode} (h : opField cw = op.code) : rowOf cw = some (rowFor op) := by
  unfold rowOf
  rw [h]
  cases op <;> decide

/-- A header that finds a row has the OP value of that row's opcode. -/
theorem code_of_rowOf {cw : Word} {r : OpRow} (h : rowOf cw = some r) : opField cw = r.op.code ∧ r = rowFor r.op := by
  have hm := List.mem_of_find?_eq_some h
  have hp := List.find?_some h
  simp only [beq_iff_eq] at hp
  have : ∀ r ∈ opcodeTable, opField r.pattern = r.op.code ∧ r = rowFor r.op := by decide
  exact ⟨hp.trans (this r hm).1, (this r hm).2⟩

/-- Two opcodes never share an OP value. -/
theorem code_injective {a b : Opcode} (h : a.code = b.code) : a = b := by
  revert a b
  have : ∀ a b : Opcode, a.code = b.code → a = b := by intro a b; cases a <;> cases b <;> decide
  exact fun {a b} h => this a b h

/-! ### The header check -/

/-- The fields that R62 marks "must be 0" for an opcode, the reserved field among them, are 0. -/
def fieldsClear (op : Opcode) (cw : Word) : Prop :=
  rsvField cw = 0 ∧ (op ≠ .update → cntField cw = 0 ∧ dataField cw = 0) ∧
    (op ∈ [.lsb, .config, .update, .digest, .reset, .rdstatus, .lfstep, .orbit] → xField cw = 0) ∧
    (op ∈ [.update, .digest, .reset, .rdstatus] → waField cw = 0)

theorem append_inj_iff {m n : Nat} (x y : BitVec m) (u v : BitVec n) : x ++ u = y ++ v ↔ x = y ∧ u = v := by
  constructor
  · intro h
    have ht := congrArg BitVec.toNat h
    rw [Machine.toNat_append_eq, Machine.toNat_append_eq] at ht
    have hu := u.isLt
    have hv := v.isLt
    have h1 := congrArg (· / 2 ^ n) ht
    have h2 := congrArg (· % 2 ^ n) ht
    simp only [Nat.mul_comm _ (2 ^ n), Nat.mul_add_div (Nat.two_pow_pos n), Nat.div_eq_of_lt hu,
      Nat.div_eq_of_lt hv, Nat.mul_add_mod, Nat.mod_eq_of_lt hu, Nat.mod_eq_of_lt hv, Nat.add_zero] at h1 h2
    exact ⟨BitVec.eq_of_toNat_eq h1, BitVec.eq_of_toNat_eq h2⟩
  · rintro ⟨rfl, rfl⟩; rfl

/-- Which of WA, X, CNT and DATA the mask of an opcode's row holds; it always holds OP and the reserved field. -/
def maskParts (op : Opcode) : BitVec 16 × BitVec 16 × BitVec 4 × BitVec 8 :=
  (if op ∈ [.update, .digest, .reset, .rdstatus] then BitVec.allOnes 16 else 0,
   if op ∈ [.lsb, .config, .update, .digest, .reset, .rdstatus, .lfstep, .orbit] then BitVec.allOnes 16 else 0,
   if op = .update then 0 else BitVec.allOnes 4, if op = .update then 0 else BitVec.allOnes 8)

theorem rowFor_mask (op : Opcode) : (rowFor op).mask =
    BitVec.allOnes 8 ++ (maskParts op).1 ++ (maskParts op).2.1 ++ BitVec.allOnes 12 ++ (maskParts op).2.2.1 ++
      (maskParts op).2.2.2 := by
  cases op <;> decide

theorem rowFor_pattern (op : Opcode) :
    (rowFor op).pattern = op.code ++ 0#16 ++ 0#16 ++ 0#12 ++ 0#4 ++ 0#8 := by
  cases op <;> decide

theorem fields_eq_iff (o o' : BitVec 8) (wa wa' x x' : BitVec 16) (r r' : BitVec 12) (c c' : BitVec 4)
    (d d' : BitVec 8) :
    o ++ wa ++ x ++ r ++ c ++ d = o' ++ wa' ++ x' ++ r' ++ c' ++ d' ↔
      ((((o = o' ∧ wa = wa') ∧ x = x') ∧ r = r') ∧ c = c') ∧ d = d' := by
  simp only [append_inj_iff]

theorem and_part_iff {n : Nat} (v : BitVec n) (c : Prop) [Decidable c] :
    v &&& (if c then BitVec.allOnes n else 0) = 0 ↔ (c → v = 0) := by
  split <;> simp_all

theorem and_part_iff' {n : Nat} (v : BitVec n) (c : Prop) [Decidable c] :
    v &&& (if c then 0 else BitVec.allOnes n) = 0 ↔ (¬c → v = 0) := by
  split <;> simp_all

/-- The table's mask and pattern check exactly the fields of R62. -/
theorem maskCheck_iff {cw : Word} {op : Opcode} (h : opField cw = op.code) :
    (cw &&& (rowFor op).mask == (rowFor op).pattern) = true ↔ fieldsClear op cw := by
  rw [beq_iff_eq, rowFor_mask, rowFor_pattern]
  conv => lhs; lhs; lhs; rw [word_eq_fields cw]
  rw [BitVec.and_append, BitVec.and_append, BitVec.and_append, BitVec.and_append, BitVec.and_append]
  refine (fields_eq_iff ..).trans ?_
  simp only [BitVec.and_allOnes, h, true_and, maskParts]
  rw [show (0#16) = 0 from rfl, show (0#4) = 0 from rfl, show (0#8) = 0 from rfl, and_part_iff, and_part_iff,
    and_part_iff', and_part_iff']
  unfold fieldsClear
  constructor
  · rintro ⟨⟨⟨⟨h1, h2⟩, h3⟩, h4⟩, h5⟩; exact ⟨h3, fun hu => ⟨h4 hu, h5 hu⟩, h2, h1⟩
  · rintro ⟨h3, h45, h2, h1⟩; exact ⟨⟨⟨⟨h1, h2⟩, h3⟩, fun hu => (h45 hu).1⟩, fun hu => (h45 hu).2⟩

/-! ### The decoder -/

/-- What the decoder reads when the header's OP is in no row. -/
theorem decode_unknown {cw : Word} {ws : List Word} (h : rowOf cw = none) : decode (cw :: ws) = .unknownOpcode ws := by
  simp [decode, h]

/-- What the decoder reads when the payload is not all there. -/
theorem decode_short {cw : Word} {ws : List Word} {op : Opcode} (h : opField cw = op.code)
    (hl : ws.length < payloadLen op cw) : decode (cw :: ws) = .incomplete := by
  simp [decode, rowOf_of_code h, rowFor_op, hl]

/-- What the decoder reads when a field that must be 0 is not. -/
theorem decode_reserved {cw : Word} {ws : List Word} {op : Opcode} (h : opField cw = op.code)
    (hl : payloadLen op cw ≤ ws.length) (hf : ¬fieldsClear op cw) :
    decode (cw :: ws) = .reservedFieldSet (ws.drop (payloadLen op cw)) := by
  have hc : ¬(cw &&& (rowFor op).mask == (rowFor op).pattern) = true := fun hc => hf ((maskCheck_iff h).mp hc)
  simp only [decode, rowOf_of_code h, rowFor_op, Nat.not_lt.mpr hl, if_false, hc]
  simp

/-- What the decoder reads when the header is legal. -/
theorem decode_legal {cw : Word} {ws : List Word} {op : Opcode} (h : opField cw = op.code)
    (hl : payloadLen op cw ≤ ws.length) (hf : fieldsClear op cw) :
    decode (cw :: ws) =
      .command (operandsOf op cw (ws.take (payloadLen op cw))) (ws.drop (payloadLen op cw)) := by
  simp only [decode, rowOf_of_code h, rowFor_op, Nat.not_lt.mpr hl, if_false, (maskCheck_iff h).mpr hf, if_true]

/-- The four cases of the decoder on a port that holds a word. -/
theorem decode_cons_cases (cw : Word) (ws : List Word) :
    (rowOf cw = none ∧ decode (cw :: ws) = .unknownOpcode ws) ∨
    ∃ op : Opcode, opField cw = op.code ∧
      ((ws.length < payloadLen op cw ∧ decode (cw :: ws) = .incomplete) ∨
       (payloadLen op cw ≤ ws.length ∧ ¬fieldsClear op cw ∧
          decode (cw :: ws) = .reservedFieldSet (ws.drop (payloadLen op cw))) ∨
       (payloadLen op cw ≤ ws.length ∧ fieldsClear op cw ∧
          decode (cw :: ws) =
            .command (operandsOf op cw (ws.take (payloadLen op cw))) (ws.drop (payloadLen op cw)))) := by
  cases hr : rowOf cw with
  | none => exact .inl ⟨rfl, decode_unknown hr⟩
  | some r =>
    have h := (code_of_rowOf hr).1
    refine .inr ⟨r.op, h, ?_⟩
    by_cases hl : ws.length < payloadLen r.op cw
    · exact .inl ⟨hl, decode_short h hl⟩
    · by_cases hf : fieldsClear r.op cw
      · exact .inr (.inr ⟨by omega, hf, decode_legal h (by omega) hf⟩)
      · exact .inr (.inl ⟨by omega, hf, decode_reserved h (by omega) hf⟩)

end Sys2Proof
end

