-- ==== Sys2Proof/Laws/HashEngine.lean ====
section
/-! SUPPORT. The per-bit step and the per-bit loop of UPDATE, against the relation `Consumes`. -/

namespace Sys2Proof.Machine

open Sys2Proof.Safety

theorem hstep_of_lowest {n : Nat} {r p : BitVec n} {i : Nat} (h : IsLowestSetBit r i) :
    hstep r p = some ((r >>> (i + 1)) ^^^ p) := by
  simp [hstep, lowestSetBit_eq_some_iff.mpr h]

@[simp] theorem hstep_zero {n : Nat} (p : BitVec n) : hstep (0#n) p = none := by
  simp [hstep]

theorem hstep_eq_none_iff {n : Nat} {r p : BitVec n} : hstep r p = none ↔ r = 0 := by
  constructor
  · intro h
    by_contra hr
    obtain ⟨i, hi⟩ := exists_lowestSetBit hr
    rw [hstep_of_lowest hi] at h
    simp at h
  · rintro rfl; exact hstep_zero p

/-- What the loop leaves: all bits consumed, or the register 0 at the bit about to be consumed. -/
theorem feedBits_cases {n : Nat} (p0 p1 r : BitVec n) (bs : List Bool) :
    ((feedBits p0 p1 r bs).zeroScan = false ∧ (feedBits p0 p1 r bs).consumed = bs.length ∧
      Consumes p0 p1 r bs (feedBits p0 p1 r bs).reg) ∨
    ((feedBits p0 p1 r bs).zeroScan = true ∧ (feedBits p0 p1 r bs).consumed < bs.length ∧
      (feedBits p0 p1 r bs).reg = 0 ∧ Consumes p0 p1 r (bs.take (feedBits p0 p1 r bs).consumed) 0) := by
  induction bs generalizing r with
  | nil => exact .inl ⟨rfl, rfl, .nil r⟩
  | cons b bs ih =>
    by_cases hr : r = 0
    · subst hr
      right
      simpa [feedBits] using Consumes.nil (p0 := p0) (p1 := p1) 0
    · obtain ⟨i, hi⟩ := exists_lowestSetBit hr
      have hs := hstep_of_lowest (p := if b then p1 else p0) hi
      rcases ih ((r >>> (i + 1)) ^^^ (if b then p1 else p0)) with ⟨hz, hc, hk⟩ | ⟨hz, hc, h0, hk⟩
      · left
        simp only [feedBits, hs]
        exact ⟨hz, by simp [hc], .cons r _ b bs i hi hk⟩
      · right
        simp only [feedBits, hs]
        exact ⟨hz, by simpa using hc, h0, .cons r _ b _ i hi hk⟩

/-- Bits that can be consumed are consumed. -/
theorem feedBits_of_consumes {n : Nat} {p0 p1 r r' : BitVec n} {bs : List Bool} (h : Consumes p0 p1 r bs r') :
    feedBits p0 p1 r bs = { reg := r', consumed := bs.length, zeroScan := false } := by
  induction h with
  | nil r => rfl
  | cons r r' b bs i hi _ ih => simp [feedBits, hstep_of_lowest hi, ih]

/-- A stream over two parts: the second starts from the register the first left. -/
theorem feedBits_append {n : Nat} {p0 p1 r r' : BitVec n} {as : List Bool} (h : Consumes p0 p1 r as r')
    (bs : List Bool) :
    feedBits p0 p1 r (as ++ bs) =
      { feedBits p0 p1 r' bs with consumed := as.length + (feedBits p0 p1 r' bs).consumed } := by
  induction h with
  | nil r => simp
  | cons r r' b as i hi _ ih => simp [feedBits, hstep_of_lowest hi, ih]; omega

/-- A stream that reaches a zero register stops there, whatever bits follow. -/
theorem feedBits_zero {n : Nat} {p0 p1 r : BitVec n} {as : List Bool} (h : Consumes p0 p1 r as 0) (b : Bool)
    (bs : List Bool) :
    feedBits p0 p1 r (as ++ b :: bs) = { reg := 0, consumed := as.length, zeroScan := true } := by
  rw [feedBits_append h]; simp [feedBits]

theorem consumes_append {n : Nat} {p0 p1 r r' r'' : BitVec n} {as bs : List Bool} (h : Consumes p0 p1 r as r')
    (h' : Consumes p0 p1 r' bs r'') : Consumes p0 p1 r (as ++ bs) r'' := by
  induction h with
  | nil r => exact h'
  | cons r r' b as i hi _ ih => exact .cons r _ b _ i hi (ih h')

theorem consumes_unique {n : Nat} {p0 p1 r r' r'' : BitVec n} {bs : List Bool} (h : Consumes p0 p1 r bs r')
    (h' : Consumes p0 p1 r bs r'') : r' = r'' := by
  have := (feedBits_of_consumes h).symm.trans (feedBits_of_consumes h')
  exact congrArg Fed.reg this

/-- A stream that can be consumed can be consumed in two parts. -/
theorem consumes_append_inv {n : Nat} {p0 p1 r r'' : BitVec n} {as bs : List Bool}
    (h : Consumes p0 p1 r (as ++ bs) r'') : ∃ r', Consumes p0 p1 r as r' ∧ Consumes p0 p1 r' bs r'' := by
  induction as generalizing r with
  | nil => exact ⟨r, .nil r, h⟩
  | cons b as ih =>
    cases h with
    | cons _ _ _ _ i hi hk =>
      obtain ⟨r', h1, h2⟩ := ih hk
      exact ⟨r', .cons r _ b _ i hi h1, h2⟩

theorem inputBits_eq_bitsOf {n : Nat} (data : Byte) (h : n ≤ 8) : inputBits n data = bitsOf [data] n := by
  unfold inputBits bitsOf
  apply List.map_congr_left
  intro i hi
  have : i < 8 := by have := List.mem_range.mp hi; omega
  simp [Nat.div_eq_of_lt this, Nat.mod_eq_of_lt this]

theorem inputBits_length (n : Nat) (data : Byte) : (inputBits n data).length = n := by simp [inputBits]

theorem bitsOf_length (buf : List Byte) (n : Nat) : (bitsOf buf n).length = n := by simp [bitsOf]

theorem bitsOf_take (buf : List Byte) {k n : Nat} (h : k ≤ n) : (bitsOf buf n).take k = bitsOf buf k := by
  simp [bitsOf, ← List.map_take, List.take_range, Nat.min_eq_left h]

end Sys2Proof.Machine
end

