-- ==== Sys2Proof/Laws/Polynomial.lean ====
section
/-! SUPPORT. Bit by bit, what the polynomial builder sets. -/

namespace Sys2Proof.Machine

/-- The bits of the fold: those it starts with, and bit N−1−d of each degree. -/
theorem foldl_setDegree_getLsbD {n : Nat} (ds : List Nat) (p : BitVec n) {i : Nat} (hi : i < n) :
    (ds.foldl setDegree p).getLsbD i = true ↔ p.getLsbD i = true ∨ ∃ d ∈ ds, i = n - 1 - d := by
  induction ds generalizing p with
  | nil => simp
  | cons d ds ih =>
    rw [List.foldl_cons, ih, setDegree]
    simp only [BitVec.getLsbD_or, Bool.or_eq_true, BitVec.getLsbD_twoPow, List.mem_cons, exists_eq_or_imp,
      Bool.and_eq_true, decide_eq_true_eq, or_assoc]
    constructor
    · rintro (h | ⟨-, h⟩ | h)
      · exact .inl h
      · exact .inr (.inl h.symm)
      · exact .inr (.inr h)
    · rintro (h | h | h)
      · exact .inl h
      · exact .inr (.inl ⟨by omega, h.symm⟩)
      · exact .inr (.inr h)

/-- Bit 0 and the bit N−1−d of each degree are set, and no other (R131). -/
theorem buildPoly_getLsbD {n : Nat} (ds : List Nat) {i : Nat} (hi : i < n) :
    (buildPoly n ds).getLsbD i = true ↔ i = 0 ∨ ∃ d ∈ ds, i = n - 1 - d := by
  rw [buildPoly, BitVec.getLsbD_or, Bool.or_eq_true, foldl_setDegree_getLsbD ds _ hi, BitVec.getLsbD_twoPow]
  simp only [BitVec.getLsbD_zero, Bool.false_eq_true, false_or, Bool.and_eq_true, decide_eq_true_eq]
  constructor
  · rintro (h | ⟨-, h⟩)
    · exact .inr h
    · exact .inl h.symm
  · rintro (h | h)
    · exact .inr ⟨by omega, h.symm⟩
    · exact .inl h

/-- The orbit seed is 1 (R133). -/
theorem buildPoly_nil (n : Nat) : buildPoly n [] = BitVec.ofNat n 1 := by
  apply BitVec.eq_of_getLsbD_eq
  intro i hi
  rw [Bool.eq_iff_iff, buildPoly_getLsbD [] hi]
  cases i with
  | zero => simp [BitVec.getLsbD_ofNat]; omega
  | succ i => simp [BitVec.getLsbD_ofNat, Nat.testBit_succ]

end Sys2Proof.Machine
end

