-- ==== Sys2Proof/Laws/Orbit.lean ====
section
/-! SUPPORT. One LFSR step bit by bit, and the orbit loop as repeated steps. -/

namespace Sys2Proof.Machine

open Sys2Proof.Safety

theorem lfStep_getLsbD {n : Nat} (v p : BitVec n) {i : Nat} (hi : i < n) :
    (lfStep v p).getLsbD i = ((decide (i + 1 < n) && v.getLsbD (i + 1)) != (v.getLsbD 0 && p.getLsbD i)) := by
  have hb : (decide (i + 1 < n) && v.getLsbD (i + 1)) = v.getLsbD (i + 1) := by
    by_cases h : i + 1 < n
    · simp [h]
    · simp [h, BitVec.getLsbD_of_ge v (i + 1) (by omega)]
  rw [hb]
  cases h0 : v.getLsbD 0 <;> simp [lfStep, h0, hi, Nat.add_comm]

/-- The step as the spec's two cases. -/
theorem lfStep_eq {n : Nat} (v p : BitVec n) :
    lfStep v p = (v >>> 1) ^^^ (if v.getLsbD 0 then p else 0) := by
  unfold lfStep
  split <;> simp

@[simp] theorem lfStep_zero {n : Nat} (p : BitVec n) : lfStep (0#n) p = 0#n := by simp [lfStep]

/-- The values of `count` steps from `v`. -/
def orbitValues {n : Nat} (p : BitVec n) (v : BitVec n) (count : Nat) : List (BitVec n) :=
  (List.range count).map fun k => (fun x => lfStep x p)^[k] v

theorem orbitValues_succ {n : Nat} (p v : BitVec n) (count : Nat) :
    orbitValues p v (count + 1) = v :: orbitValues p (lfStep v p) count := by
  simp [orbitValues, List.range_succ_eq_map, Function.comp_def]

/-- The loop that does not come back to the seed within its budget records the budget's number of values. -/
theorem orbitFrom_open {n : Nat} (p seed : BitVec n) (budget : Nat) (v : BitVec n)
    (h : ∀ k, 1 ≤ k → k ≤ budget → (fun x => lfStep x p)^[k] v ≠ seed) :
    orbitFrom p seed budget v = (false, orbitValues p v budget) := by
  induction budget generalizing v with
  | zero => simp [orbitFrom, orbitValues]
  | succ b ih =>
    have h1 : lfStep v p ≠ seed := h 1 (Nat.le_refl _) (by omega)
    have := ih (lfStep v p) fun k hk hb => by
      have := h (k + 1) (by omega) (by omega)
      rwa [Function.iterate_succ_apply] at this
    simp [orbitFrom, h1, this, orbitValues_succ]

/-- The loop that comes back to the seed after `c` steps, for the first time and within its budget, records `c` values. -/
theorem orbitFrom_closed {n : Nat} (p seed : BitVec n) (budget c : Nat) (v : BitVec n) (hc : 1 ≤ c) (hb : c ≤ budget)
    (hseed : (fun x => lfStep x p)^[c] v = seed)
    (h : ∀ k, 1 ≤ k → k < c → (fun x => lfStep x p)^[k] v ≠ seed) :
    orbitFrom p seed budget v = (true, orbitValues p v c) := by
  induction budget generalizing v c with
  | zero => omega
  | succ b ih =>
    obtain ⟨c, rfl⟩ : ∃ c', c = c' + 1 := ⟨c - 1, by omega⟩
    by_cases hz : c = 0
    · subst hz
      have h1 : lfStep v p = seed := by simpa using hseed
      simp [orbitFrom, h1, orbitValues]
    · have h1 : lfStep v p ≠ seed := h 1 (Nat.le_refl _) (by omega)
      have := ih c (lfStep v p) (by omega) (by omega) (by rwa [Function.iterate_succ_apply] at hseed)
        fun k hk hlt => by
          have := h (k + 1) (by omega) (by omega)
          rwa [Function.iterate_succ_apply] at this
      simp [orbitFrom, h1, this, orbitValues_succ]

/-- The loop closes or uses up its budget. -/
theorem orbitFrom_length {n : Nat} (p seed : BitVec n) (budget : Nat) (v : BitVec n) :
    (orbitFrom p seed budget v).2.length ≤ budget := by
  induction budget generalizing v with
  | zero => simp [orbitFrom]
  | succ b ih =>
    unfold orbitFrom
    by_cases h : lfStep v p = seed
    · simp [h]
    · simpa [h] using ih (lfStep v p)

end Sys2Proof.Machine
end

