-- ==== Sys2Proof/Laws/Exec.lean ====
section
/-! SUPPORT. Once for all: everything a command and a step can do. Proofs about the whole machine cite `exec_cases`
and `step_cases` and unfold no meaning. -/

namespace Sys2Proof.Machine

open Sys2Proof.Safety

/-- What a response can look like: a code of R200, and the shapes of R70. -/
def ResponseShape (i : Instr) (st w sc : Nat) (ws : List Word) : Prop :=
  st ≤ 8 ∧ w < 2 ^ 16 ∧ sc < 2 ^ 32 ∧
  (st ≠ 0 → st ≠ 8 → w = 0 ∧ ws = [] ∧ (sc = 0 ∨ st = 1 ∧ isUpdate i = true)) ∧
  (i.opcode ≠ .orbit → ws.length = nw w ∧ st ≠ 8) ∧
  (i.opcode = .orbit → st = 0 ∨ st = 8 → ∃ count : Word, ws.head? = some count ∧ ws.length = 1 + count.toNat * nw w)

/-- What a command with status `st` can do to the engine and ZF: nothing, or what CONFIG, UPDATE and RESET do. -/
def Effect (i : Instr) (s t : State) (st : Nat) : Prop :=
  (t.engine = s.engine ∧ t.zf = s.zf) ∨
  (isConfig i = true ∧ st = 0 ∧ ∃ e, engineLegal e = true ∧ t.engine = some e ∧ t.zf = false) ∨
  (isUpdate i = true ∧ st = 0 ∧ ∃ e r, s.engine = some e ∧ t.engine = some { e with reg := r } ∧ t.zf = s.zf) ∨
  (isUpdate i = true ∧ st = 1 ∧ ∃ e, s.engine = some e ∧ t.engine = some { e with reg := 0 } ∧ t.zf = true) ∨
  (i = .reset ∧ st = 0 ∧ ∃ e, s.engine = some e ∧ t.engine = some { e with reg := e.init } ∧ t.zf = s.zf)

/-- One command's outcome: its next state, its one response and its effect. -/
def Completes (i : Instr) (s : State) (o : Result) : Prop :=
  ∃ (t : State) (st w sc : Nat) (ws : List Word), o = .next t ∧ t.cmdPort = s.cmdPort ∧
    t.respPort = s.respPort ++ rw st w sc :: ws ∧ ResponseShape i st w sc ws ∧ Effect i s t st

/-- An error with SCALAR 0 and no state change. -/
theorem completes_raise (i : Instr) (s : State) (e : Status) (h : e ≠ .ok) (h8 : e ≠ .sBudget) :
    Completes i s (raise e 0 s) := by
  refine ⟨_, _, _, _, _, raise_eq e 0 s, rfl, rfl, ⟨status_code_le e, by decide, by decide, ?_, ?_, ?_⟩, .inl ⟨rfl, rfl⟩⟩
  · exact fun _ _ => ⟨rfl, rfl, .inl rfl⟩
  · intro _; cases e <;> simp [Status.code] at h8 ⊢ <;> rfl
  · intro _ hst; cases e <;> simp [Status.code] at h h8 hst

/-- An OK answer of a command other than ORBIT, with as many words as its width says. -/
theorem completes_ok (i : Instr) (s t : State) (w : BitVec 16) (sc : BitVec 32) (ws : List Word)
    (hw : ws.length = nw w.toNat) (hi : i.opcode ≠ .orbit) (hp : t.cmdPort = s.cmdPort)
    (hr : t.respPort = s.respPort) (he : Effect i s t 0) : Completes i s (respond .ok w sc ws t) := by
  refine ⟨_, _, _, _, _, respond_eq .ok w sc ws t, hp, by rw [sent_respPort, hr]; rfl,
    ⟨by decide, w.isLt, sc.isLt, fun h => absurd rfl h, fun _ => ⟨hw, by decide⟩, fun h => absurd h hi⟩, he⟩

theorem flatMap_vecWords_length {w : Nat} (vs : List (BitVec w)) :
    (vs.flatMap fun v => vecWords v).length = vs.length * nw w := by
  induction vs with
  | nil => simp
  | cons v vs ih => simp [ih, Nat.add_mul, Nat.add_comm]

theorem completes_config (d : BitVec 16) (a b c : List Word) (s : State) :
    Completes (.config d a b c) s (execConfig d a b c s) := by
  unfold execConfig
  split
  · next hd =>
    split
    · next vi v0 v1 h0 h1 h2 =>
      split
      · next hp =>
        refine completes_ok _ s _ 0 0 [] rfl nofun rfl rfl (.inr (.inl ⟨rfl, rfl, _, ?_, rfl, rfl⟩))
        simp only [Bool.and_eq_true] at hp
        simp [engineLegal, hd, hp]
      · exact completes_raise _ s .ePoly (by decide) (by decide)
    · exact completes_raise _ s .eWidth (by decide) (by decide)
  · exact completes_raise _ s .eWidth (by decide) (by decide)

theorem completes_update (cnt : BitVec 4) (data : BitVec 8) (s : State) :
    Completes (.update cnt data) s (execUpdate cnt data s) := by
  unfold execUpdate
  split
  · exact completes_raise _ s .eNoCfg (by decide) (by decide)
  · next e he =>
    split
    · exact completes_raise _ s .eRange (by decide) (by decide)
    · rcases feedBits_cases e.poly0 e.poly1 e.reg (inputBits cnt.toNat data) with ⟨hz, hc, -⟩ | ⟨hz, hc, h0, -⟩
      · simp only [hz]
        exact completes_ok _ s _ 0 _ [] rfl nofun rfl rfl (.inr (.inr (.inl ⟨rfl, rfl, e, _, he, rfl, rfl⟩)))
      · simp only [hz, if_true, h0]
        refine ⟨_, _, _, _, _, raise_eq .eZeroScan _ _, rfl, rfl,
          ⟨by decide, by decide, BitVec.isLt _, fun _ _ => ⟨rfl, rfl, .inr ⟨rfl, rfl⟩⟩, fun _ => ⟨rfl, by decide⟩,
            fun h => by simp [Instr.opcode] at h⟩,
          .inr (.inr (.inr (.inl ⟨rfl, rfl, e, he, rfl, rfl⟩)))⟩

theorem completes_orbit (n : BitVec 16) (p : List Word) (budget : Word) (s : State) :
    Completes (.orbit n p budget) s (execOrbit n p budget s) := by
  unfold execOrbit
  split
  · exact completes_raise _ s .eWidth (by decide) (by decide)
  · next vp _ =>
    split
    · exact completes_raise _ s .eRange (by decide) (by decide)
    · split
      · have hlen := orbitFrom_length vp (buildPoly n.toNat []) budget.toNat (buildPoly n.toNat [])
        dsimp only
        generalize orbitFrom vp (buildPoly n.toNat []) budget.toNat (buildPoly n.toNat []) = o at hlen ⊢
        obtain ⟨closed, out⟩ := o
        dsimp only at hlen ⊢
        refine ⟨_, _, _, _, _, respond_eq _ n 0 _ s, rfl, rfl, ⟨status_code_le _, n.isLt, by decide, ?_, ?_, ?_⟩,
          .inl ⟨rfl, rfl⟩⟩
        · intro h h8; cases closed
          · exact absurd rfl h8
          · exact absurd rfl h
        · intro h; exact absurd rfl h
        · intro _ _
          refine ⟨_, rfl, ?_⟩
          have := budget.isLt
          rw [List.length_cons, flatMap_vecWords_length, BitVec.toNat_ofNat, Nat.mod_eq_of_lt (by omega),
            Nat.add_comm]
      · exact completes_raise _ s .ePoly (by decide) (by decide)

/-- Everything a command can do: it completes with a next state, one response, and one of the effects. -/
theorem exec_cases (i : Instr) (s : State) : Completes i s (exec i s) := by
  have keep : ∀ {i : Instr} {st : Nat}, Effect i s s st := .inl ⟨rfl, rfl⟩
  cases i with
  | shr w k a =>
    simp only [exec, execShr]
    split
    · exact completes_raise _ s .eWidth (by decide) (by decide)
    · split
      · exact completes_raise _ s .eRange (by decide) (by decide)
      · exact completes_ok _ s s _ _ _ (vecWords_length _) nofun rfl rfl keep
  | xor wa wb a b =>
    simp only [exec, execXor]
    split
    · exact completes_raise _ s .eWidth (by decide) (by decide)
    · exact completes_ok _ s s _ _ _ (vecWords_length _) nofun rfl rfl keep
  | and wa wb a b =>
    simp only [exec, execAnd]
    split
    · exact completes_raise _ s .eWidth (by decide) (by decide)
    · exact completes_ok _ s s _ _ _ (vecWords_length _) nofun rfl rfl keep
  | eq wa wb a b =>
    simp only [exec, execEq]
    split
    · exact completes_raise _ s .eWidth (by decide) (by decide)
    · exact completes_ok _ s s 0 _ [] rfl nofun rfl rfl keep
  | lsb w a =>
    simp only [exec, execLsb]
    split
    · exact completes_raise _ s .eWidth (by decide) (by decide)
    · split
      · exact completes_raise _ s .eZeroScan (by decide) (by decide)
      · exact completes_ok _ s s 0 _ [] rfl nofun rfl rfl keep
  | narrow w m a =>
    simp only [exec, execNarrow]
    split
    · exact completes_raise _ s .eWidth (by decide) (by decide)
    · split
      · exact completes_ok _ s s _ _ _ (vecWords_length _) nofun rfl rfl keep
      · exact completes_raise _ s .eWidth (by decide) (by decide)
  | widen w m a =>
    simp only [exec, execWiden]
    split
    · exact completes_raise _ s .eWidth (by decide) (by decide)
    · split
      · exact completes_ok _ s s _ _ _ (vecWords_length _) nofun rfl rfl keep
      · exact completes_raise _ s .eWidth (by decide) (by decide)
  | buildpoly n l ds =>
    simp only [exec, execBuildpoly]
    split
    · split
      · exact completes_ok _ s s _ _ _ (vecWords_length _) nofun rfl rfl keep
      · exact completes_raise _ s .eDegree (by decide) (by decide)
    · exact completes_raise _ s .eWidth (by decide) (by decide)
  | config d a b c => exact completes_config d a b c s
  | update cnt data => exact completes_update cnt data s
  | digest =>
    simp only [exec, execDigest]
    split
    · exact completes_raise _ s .eNoCfg (by decide) (by decide)
    · exact completes_ok _ s s _ _ _ (vecWords_length _) nofun rfl rfl keep
  | reset =>
    simp only [exec, execReset]
    split
    · exact completes_raise _ s .eNoCfg (by decide) (by decide)
    · next e he =>
      exact completes_ok _ s _ 0 _ [] rfl nofun rfl rfl
        (.inr (.inr (.inr (.inr ⟨rfl, rfl, e, he, rfl, rfl⟩))))
  | rdstatus => exact completes_ok _ s s 0 _ [] rfl nofun rfl rfl keep
  | lfstep n v p =>
    simp only [exec, execLfstep]
    split
    · split
      · split
        · exact completes_ok _ s s _ _ _ (vecWords_length _) nofun rfl rfl keep
        · exact completes_raise _ s .ePoly (by decide) (by decide)
      · exact completes_raise _ s .eWidth (by decide) (by decide)
    · exact completes_raise _ s .eWidth (by decide) (by decide)
  | orbit n p budget => exact completes_orbit n p budget s

/-- Everything a step can do: run the command at the head of the port, answer a header that fails the decode check, or
wait. -/
theorem step_cases (s : State) :
    (∃ i rest, decode s.cmdPort = .command i rest ∧ step s = exec i (s.setCmdPort rest)) ∨
    (∃ rest, (decode s.cmdPort = .unknownOpcode rest ∨ decode s.cmdPort = .reservedFieldSet rest) ∧
      step s = .next (sent { s with cmdPort := rest } 7 0 0 [])) ∨
    (decode s.cmdPort = .incomplete ∧ step s = .next s) := by
  unfold step
  cases h : decode s.cmdPort with
  | command i rest => exact .inl ⟨i, rest, rfl, rfl⟩
  | unknownOpcode rest => exact .inr (.inl ⟨rest, .inl rfl, takeIllegal_eq rest s⟩)
  | reservedFieldSet rest => exact .inr (.inl ⟨rest, .inr rfl, takeIllegal_eq rest s⟩)
  | incomplete => exact .inr (.inr ⟨rfl, rfl⟩)

/-- A step always answers a next state. -/
theorem step_next (s : State) : ∃ t, step s = .next t := by
  rcases step_cases s with ⟨i, rest, -, h⟩ | ⟨rest, -, h⟩ | ⟨-, h⟩
  · obtain ⟨t, _, _, _, _, ht, -⟩ := exec_cases i (s.setCmdPort rest)
    exact ⟨t, h.trans ht⟩
  · exact ⟨_, h⟩
  · exact ⟨_, h⟩

end Sys2Proof.Machine
end

