-- ==== Sys2Proof/Laws/PerInstr.lean ====
section
/-! SUPPORT. Laws of every command as syntax, one lemma a constructor.

`LegalHeader`: its header has its own OP value and every field that must be 0 is 0 (R62, R65, R66).
`PayloadFits`: a well-formed command has as many payload words as its header says (R68).
`OperandsReadBack`: cutting its payload by its header gives the command back (R62). -/

namespace Sys2Proof.Laws

/-- See the file's head. -/
def LegalHeader.Statement (i : Instr) : Prop :=
  opField i.header = i.opcode.code ∧ fieldsClear i.opcode i.header

theorem LegalHeader.shr (w : BitVec 16) (k : BitVec 16) (a : List Word) : LegalHeader.Statement (.shr w k a) := by
  simp [LegalHeader.Statement, Instr.header, Instr.opcode, fieldsClear]

theorem LegalHeader.xor (wa : BitVec 16) (wb : BitVec 16) (a : List Word) (b : List Word) : LegalHeader.Statement (.xor wa wb a b) := by
  simp [LegalHeader.Statement, Instr.header, Instr.opcode, fieldsClear]

theorem LegalHeader.and (wa : BitVec 16) (wb : BitVec 16) (a : List Word) (b : List Word) : LegalHeader.Statement (.and wa wb a b) := by
  simp [LegalHeader.Statement, Instr.header, Instr.opcode, fieldsClear]

theorem LegalHeader.eq (wa : BitVec 16) (wb : BitVec 16) (a : List Word) (b : List Word) : LegalHeader.Statement (.eq wa wb a b) := by
  simp [LegalHeader.Statement, Instr.header, Instr.opcode, fieldsClear]

theorem LegalHeader.lsb (w : BitVec 16) (a : List Word) : LegalHeader.Statement (.lsb w a) := by
  simp [LegalHeader.Statement, Instr.header, Instr.opcode, fieldsClear]

theorem LegalHeader.narrow (w : BitVec 16) (m : BitVec 16) (a : List Word) : LegalHeader.Statement (.narrow w m a) := by
  simp [LegalHeader.Statement, Instr.header, Instr.opcode, fieldsClear]

theorem LegalHeader.widen (w : BitVec 16) (m : BitVec 16) (a : List Word) : LegalHeader.Statement (.widen w m a) := by
  simp [LegalHeader.Statement, Instr.header, Instr.opcode, fieldsClear]

theorem LegalHeader.buildpoly (n : BitVec 16) (l : BitVec 16) (ds : List Word) : LegalHeader.Statement (.buildpoly n l ds) := by
  simp [LegalHeader.Statement, Instr.header, Instr.opcode, fieldsClear]

theorem LegalHeader.config (d : BitVec 16) (init : List Word) (p0 : List Word) (p1 : List Word) : LegalHeader.Statement (.config d init p0 p1) := by
  simp [LegalHeader.Statement, Instr.header, Instr.opcode, fieldsClear]

theorem LegalHeader.update (cnt : BitVec 4) (data : BitVec 8) : LegalHeader.Statement (.update cnt data) := by
  simp [LegalHeader.Statement, Instr.header, Instr.opcode, fieldsClear]

theorem LegalHeader.digest : LegalHeader.Statement .digest := by
  simp [LegalHeader.Statement, Instr.header, Instr.opcode, fieldsClear]

theorem LegalHeader.reset : LegalHeader.Statement .reset := by
  simp [LegalHeader.Statement, Instr.header, Instr.opcode, fieldsClear]

theorem LegalHeader.rdstatus : LegalHeader.Statement .rdstatus := by
  simp [LegalHeader.Statement, Instr.header, Instr.opcode, fieldsClear]

theorem LegalHeader.lfstep (n : BitVec 16) (v : List Word) (p : List Word) : LegalHeader.Statement (.lfstep n v p) := by
  simp [LegalHeader.Statement, Instr.header, Instr.opcode, fieldsClear]

theorem LegalHeader.orbit (n : BitVec 16) (p : List Word) (budget : Word) : LegalHeader.Statement (.orbit n p budget) := by
  simp [LegalHeader.Statement, Instr.header, Instr.opcode, fieldsClear]

theorem LegalHeader.all (i : Instr) : LegalHeader.Statement i := by
  cases i with
  | shr w k a => exact LegalHeader.shr w k a
  | xor wa wb a b => exact LegalHeader.xor wa wb a b
  | and wa wb a b => exact LegalHeader.and wa wb a b
  | eq wa wb a b => exact LegalHeader.eq wa wb a b
  | lsb w a => exact LegalHeader.lsb w a
  | narrow w m a => exact LegalHeader.narrow w m a
  | widen w m a => exact LegalHeader.widen w m a
  | buildpoly n l ds => exact LegalHeader.buildpoly n l ds
  | config d init p0 p1 => exact LegalHeader.config d init p0 p1
  | update cnt data => exact LegalHeader.update cnt data
  | digest => exact LegalHeader.digest
  | reset => exact LegalHeader.reset
  | rdstatus => exact LegalHeader.rdstatus
  | lfstep n v p => exact LegalHeader.lfstep n v p
  | orbit n p budget => exact LegalHeader.orbit n p budget

/-- See the file's head. -/
def PayloadFits.Statement (i : Instr) : Prop :=
  i.wellFormed = true → payloadLen i.opcode i.header = i.payload.length

theorem PayloadFits.shr (w : BitVec 16) (k : BitVec 16) (a : List Word) : PayloadFits.Statement (.shr w k a) := by
  simp +contextual [PayloadFits.Statement, Instr.wellFormed, Instr.header, Instr.opcode, Instr.payload, payloadLen]

theorem PayloadFits.xor (wa : BitVec 16) (wb : BitVec 16) (a : List Word) (b : List Word) : PayloadFits.Statement (.xor wa wb a b) := by
  simp +contextual [PayloadFits.Statement, Instr.wellFormed, Instr.header, Instr.opcode, Instr.payload, payloadLen]

theorem PayloadFits.and (wa : BitVec 16) (wb : BitVec 16) (a : List Word) (b : List Word) : PayloadFits.Statement (.and wa wb a b) := by
  simp +contextual [PayloadFits.Statement, Instr.wellFormed, Instr.header, Instr.opcode, Instr.payload, payloadLen]

theorem PayloadFits.eq (wa : BitVec 16) (wb : BitVec 16) (a : List Word) (b : List Word) : PayloadFits.Statement (.eq wa wb a b) := by
  simp +contextual [PayloadFits.Statement, Instr.wellFormed, Instr.header, Instr.opcode, Instr.payload, payloadLen]

theorem PayloadFits.lsb (w : BitVec 16) (a : List Word) : PayloadFits.Statement (.lsb w a) := by
  simp +contextual [PayloadFits.Statement, Instr.wellFormed, Instr.header, Instr.opcode, Instr.payload, payloadLen]

theorem PayloadFits.narrow (w : BitVec 16) (m : BitVec 16) (a : List Word) : PayloadFits.Statement (.narrow w m a) := by
  simp +contextual [PayloadFits.Statement, Instr.wellFormed, Instr.header, Instr.opcode, Instr.payload, payloadLen]

theorem PayloadFits.widen (w : BitVec 16) (m : BitVec 16) (a : List Word) : PayloadFits.Statement (.widen w m a) := by
  simp +contextual [PayloadFits.Statement, Instr.wellFormed, Instr.header, Instr.opcode, Instr.payload, payloadLen]

theorem PayloadFits.buildpoly (n : BitVec 16) (l : BitVec 16) (ds : List Word) : PayloadFits.Statement (.buildpoly n l ds) := by
  simp +contextual [PayloadFits.Statement, Instr.wellFormed, Instr.header, Instr.opcode, Instr.payload, payloadLen]

theorem PayloadFits.config (d : BitVec 16) (init : List Word) (p0 : List Word) (p1 : List Word) : PayloadFits.Statement (.config d init p0 p1) := by
  simp +contextual [PayloadFits.Statement, Instr.wellFormed, Instr.header, Instr.opcode, Instr.payload, payloadLen]
  try omega

theorem PayloadFits.update (cnt : BitVec 4) (data : BitVec 8) : PayloadFits.Statement (.update cnt data) := by
  simp +contextual [PayloadFits.Statement, Instr.wellFormed, Instr.header, Instr.opcode, Instr.payload, payloadLen]

theorem PayloadFits.digest : PayloadFits.Statement .digest := by
  simp +contextual [PayloadFits.Statement, Instr.wellFormed, Instr.header, Instr.opcode, Instr.payload, payloadLen]

theorem PayloadFits.reset : PayloadFits.Statement .reset := by
  simp +contextual [PayloadFits.Statement, Instr.wellFormed, Instr.header, Instr.opcode, Instr.payload, payloadLen]

theorem PayloadFits.rdstatus : PayloadFits.Statement .rdstatus := by
  simp +contextual [PayloadFits.Statement, Instr.wellFormed, Instr.header, Instr.opcode, Instr.payload, payloadLen]

theorem PayloadFits.lfstep (n : BitVec 16) (v : List Word) (p : List Word) : PayloadFits.Statement (.lfstep n v p) := by
  simp +contextual [PayloadFits.Statement, Instr.wellFormed, Instr.header, Instr.opcode, Instr.payload, payloadLen]
  try omega

theorem PayloadFits.orbit (n : BitVec 16) (p : List Word) (budget : Word) : PayloadFits.Statement (.orbit n p budget) := by
  simp +contextual [PayloadFits.Statement, Instr.wellFormed, Instr.header, Instr.opcode, Instr.payload, payloadLen]

theorem PayloadFits.all (i : Instr) : PayloadFits.Statement i := by
  cases i with
  | shr w k a => exact PayloadFits.shr w k a
  | xor wa wb a b => exact PayloadFits.xor wa wb a b
  | and wa wb a b => exact PayloadFits.and wa wb a b
  | eq wa wb a b => exact PayloadFits.eq wa wb a b
  | lsb w a => exact PayloadFits.lsb w a
  | narrow w m a => exact PayloadFits.narrow w m a
  | widen w m a => exact PayloadFits.widen w m a
  | buildpoly n l ds => exact PayloadFits.buildpoly n l ds
  | config d init p0 p1 => exact PayloadFits.config d init p0 p1
  | update cnt data => exact PayloadFits.update cnt data
  | digest => exact PayloadFits.digest
  | reset => exact PayloadFits.reset
  | rdstatus => exact PayloadFits.rdstatus
  | lfstep n v p => exact PayloadFits.lfstep n v p
  | orbit n p budget => exact PayloadFits.orbit n p budget

/-- See the file's head. -/
def OperandsReadBack.Statement (i : Instr) : Prop :=
  i.wellFormed = true → operandsOf i.opcode i.header i.payload = i

theorem OperandsReadBack.shr (w : BitVec 16) (k : BitVec 16) (a : List Word) : OperandsReadBack.Statement (.shr w k a) := by
  simp +contextual [OperandsReadBack.Statement, Instr.wellFormed, Instr.header, Instr.opcode, Instr.payload, operandsOf]

theorem OperandsReadBack.xor (wa : BitVec 16) (wb : BitVec 16) (a : List Word) (b : List Word) : OperandsReadBack.Statement (.xor wa wb a b) := by
  simp +contextual [OperandsReadBack.Statement, Instr.wellFormed, Instr.header, Instr.opcode, Instr.payload, operandsOf]

theorem OperandsReadBack.and (wa : BitVec 16) (wb : BitVec 16) (a : List Word) (b : List Word) : OperandsReadBack.Statement (.and wa wb a b) := by
  simp +contextual [OperandsReadBack.Statement, Instr.wellFormed, Instr.header, Instr.opcode, Instr.payload, operandsOf]

theorem OperandsReadBack.eq (wa : BitVec 16) (wb : BitVec 16) (a : List Word) (b : List Word) : OperandsReadBack.Statement (.eq wa wb a b) := by
  simp +contextual [OperandsReadBack.Statement, Instr.wellFormed, Instr.header, Instr.opcode, Instr.payload, operandsOf]

theorem OperandsReadBack.lsb (w : BitVec 16) (a : List Word) : OperandsReadBack.Statement (.lsb w a) := by
  simp +contextual [OperandsReadBack.Statement, Instr.wellFormed, Instr.header, Instr.opcode, Instr.payload, operandsOf]

theorem OperandsReadBack.narrow (w : BitVec 16) (m : BitVec 16) (a : List Word) : OperandsReadBack.Statement (.narrow w m a) := by
  simp +contextual [OperandsReadBack.Statement, Instr.wellFormed, Instr.header, Instr.opcode, Instr.payload, operandsOf]

theorem OperandsReadBack.widen (w : BitVec 16) (m : BitVec 16) (a : List Word) : OperandsReadBack.Statement (.widen w m a) := by
  simp +contextual [OperandsReadBack.Statement, Instr.wellFormed, Instr.header, Instr.opcode, Instr.payload, operandsOf]

theorem OperandsReadBack.buildpoly (n : BitVec 16) (l : BitVec 16) (ds : List Word) : OperandsReadBack.Statement (.buildpoly n l ds) := by
  simp +contextual [OperandsReadBack.Statement, Instr.wellFormed, Instr.header, Instr.opcode, Instr.payload, operandsOf]

theorem OperandsReadBack.config (d : BitVec 16) (init : List Word) (p0 : List Word) (p1 : List Word) : OperandsReadBack.Statement (.config d init p0 p1) := by
  simp +contextual [OperandsReadBack.Statement, Instr.wellFormed, Instr.header, Instr.opcode, Instr.payload, operandsOf]
  intro h0 h1 _
  rw [← List.append_assoc, List.drop_left' (by simp; omega)]

theorem OperandsReadBack.update (cnt : BitVec 4) (data : BitVec 8) : OperandsReadBack.Statement (.update cnt data) := by
  simp [OperandsReadBack.Statement, Instr.header, Instr.opcode, operandsOf]

theorem OperandsReadBack.digest : OperandsReadBack.Statement .digest := by
  simp [OperandsReadBack.Statement, Instr.opcode, operandsOf]

theorem OperandsReadBack.reset : OperandsReadBack.Statement .reset := by
  simp [OperandsReadBack.Statement, Instr.opcode, operandsOf]

theorem OperandsReadBack.rdstatus : OperandsReadBack.Statement .rdstatus := by
  simp [OperandsReadBack.Statement, Instr.opcode, operandsOf]

theorem OperandsReadBack.lfstep (n : BitVec 16) (v : List Word) (p : List Word) : OperandsReadBack.Statement (.lfstep n v p) := by
  simp +contextual [OperandsReadBack.Statement, Instr.wellFormed, Instr.header, Instr.opcode, Instr.payload, operandsOf]

theorem OperandsReadBack.orbit (n : BitVec 16) (p : List Word) (budget : Word) : OperandsReadBack.Statement (.orbit n p budget) := by
  simp +contextual [OperandsReadBack.Statement, Instr.wellFormed, Instr.header, Instr.opcode, Instr.payload, operandsOf]

theorem OperandsReadBack.all (i : Instr) : OperandsReadBack.Statement i := by
  cases i with
  | shr w k a => exact OperandsReadBack.shr w k a
  | xor wa wb a b => exact OperandsReadBack.xor wa wb a b
  | and wa wb a b => exact OperandsReadBack.and wa wb a b
  | eq wa wb a b => exact OperandsReadBack.eq wa wb a b
  | lsb w a => exact OperandsReadBack.lsb w a
  | narrow w m a => exact OperandsReadBack.narrow w m a
  | widen w m a => exact OperandsReadBack.widen w m a
  | buildpoly n l ds => exact OperandsReadBack.buildpoly n l ds
  | config d init p0 p1 => exact OperandsReadBack.config d init p0 p1
  | update cnt data => exact OperandsReadBack.update cnt data
  | digest => exact OperandsReadBack.digest
  | reset => exact OperandsReadBack.reset
  | rdstatus => exact OperandsReadBack.rdstatus
  | lfstep n v p => exact OperandsReadBack.lfstep n v p
  | orbit n p budget => exact OperandsReadBack.orbit n p budget

end Sys2Proof.Laws
end

