-- ==== Sys2Proof/Laws/Step.lean ====
section
/-! SUPPORT. A step on a port whose first word is known: the command it runs, the header it rejects. -/

namespace Sys2Proof.Machine

open Sys2Proof.Safety

theorem step_command {s : State} {i : Instr} {rest : List Word} (h : decode s.cmdPort = .command i rest) :
    step s = exec i (s.setCmdPort rest) := by
  unfold step; rw [h]

theorem step_rejected {s : State} {rest : List Word}
    (h : decode s.cmdPort = .unknownOpcode rest ∨ decode s.cmdPort = .reservedFieldSet rest) :
    step s = .next (sent { s with cmdPort := rest } 7 0 0 []) := by
  unfold step
  rcases h with h | h <;> rw [h] <;> exact takeIllegal_eq rest s

theorem step_incomplete {s : State} (h : decode s.cmdPort = .incomplete) : step s = .next s := by
  unfold step; rw [h]; rfl

/-- A run takes its first step, then the others. -/
theorem core_run_succ {M : Host.Core} (k : Nat) {s t : M.State} (h : M.step s = .next t) : M.run (k + 1) s = M.run k t := by
  rw [Host.Core.run, h]

/-- An OP number that is some opcode's code. -/
theorem opField_of_opOf {cw : Word} {op : Opcode} (h : opOf cw = op.code.toNat) : opField cw = op.code :=
  BitVec.eq_of_toNat_eq ((opField_toNat cw).trans h)

/-- The payload length in the spec's numbers. -/
theorem payloadLenOf_of_code {cw : Word} {op : Opcode} (h : opField cw = op.code) :
    payloadLenOf cw = some (payloadLen op cw) := by
  have ho : opOf cw = op.code.toNat := by rw [← opField_toNat, h]
  unfold payloadLenOf
  rw [ho]
  cases op <;> simp [Opcode.code, payloadLen, waField_toNat, xField_toNat]

theorem payloadLenOf_of_unknown {cw : Word} (h : rowOf cw = none) : payloadLenOf cw = none := by
  have hn : ∀ op : Opcode, opOf cw ≠ op.code.toNat := by
    intro op ho
    rw [rowOf_of_code (opField_of_opOf ho)] at h
    simp at h
  have h1 := hn .shr; have h2 := hn .xor; have h3 := hn .and; have h4 := hn .eq; have h5 := hn .lsb
  have h6 := hn .narrow; have h7 := hn .widen; have h8 := hn .buildpoly; have h9 := hn .config
  have h10 := hn .update; have h11 := hn .digest; have h12 := hn .reset; have h13 := hn .rdstatus
  have h14 := hn .lfstep; have h15 := hn .orbit
  simp only [Opcode.code, BitVec.toNat_ofNat] at h1 h2 h3 h4 h5 h6 h7 h8 h9 h10 h11 h12 h13 h14 h15
  norm_num at h1 h2 h3 h4 h5 h6 h7 h8 h9 h10 h11 h12 h13 h14 h15
  simp [payloadLenOf, *]

/-- Of a legal header whose format leaves RSV, CNT and DATA unused, bits 23:0 are 0 (R62). -/
theorem low24_of_fieldsClear {op : Opcode} {cw : Word} (hop : op ≠ .update) (h : fieldsClear op cw) : cw.toNat % 2 ^ 24 = 0 := by
  have hr := congrArg BitVec.toNat h.1
  have hc := congrArg BitVec.toNat (h.2.1 hop).1
  have hd := congrArg BitVec.toNat (h.2.1 hop).2
  rw [rsvField_toNat] at hr
  rw [cntField_toNat] at hc
  rw [dataField_toNat] at hd
  simp at hr hc hd
  omega

/-- A header that fails its opcode's field check is answered with E_ILLEGAL, its payload consumed (R66, R201). -/
theorem illegalWhen_of_fields {op : Opcode} {len : Word → Nat} {bad : Word → Prop}
    (hlen : ∀ cw, len cw = payloadLen op cw) (hbad : ∀ cw, fieldsClear op cw → ¬bad cw) :
    IllegalWhen op.code.toNat len bad := by
  intro s cw ws hs ho hl hb
  have h := opField_of_opOf ho
  rw [hlen] at hl ⊢
  exact step_rejected (.inr (hs ▸ decode_reserved h hl fun hf => hbad cw hf hb))

end Sys2Proof.Machine
end

