-- ==== Sys2Proof/Laws/HostSide.lean ====
section
/-! SUPPORT. What issuing one command does on an idle port, and the status read back from a response. -/

namespace Sys2Proof.Machine

open Sys2Proof.Safety

/-- On an idle port, issuing a command whose words decode to it is running it. -/
theorem issue_eq (i : Instr) {s : State} (hs : s.cmdPort = []) (hd : decode (encode i) = .command i []) :
    issue i s = exec i s := by
  have hd' : decode (s.hostSend (encode i)).cmdPort = .command i [] := by rw [State.hostSend_cmdPort, hs]; exact hd
  rw [issue, step_command hd']
  congr 1
  obtain ⟨_, _, _, _⟩ := s
  simp only at hs; subst hs; rfl

/-- The newest status is the code of the response sent. -/
theorem newestStatus_of {s t : State} {st w sc : Nat} {ws : List Word} (hr : t.respPort = s.respPort ++ rw st w sc :: ws)
    (h1 : st ≤ 8) (h2 : w < 2 ^ 16) (h3 : sc < 2 ^ 32) : newestStatus s t = some (BitVec.ofNat 8 st) := by
  simp [newestStatus, hr, rw_status (st := st) (by omega) h2 h3]

/-- The one step that loses the frame: the unit answers E_ILLEGAL and the stream is stuck there. -/
theorem streamStep_unknown {s : State} {rest : List Word} (h : decode s.cmdPort = .unknownOpcode rest) :
    streamStep (.inFrame s) = some (.lost (sent { s with cmdPort := rest } 7 0 0 [])) := by
  simp only [streamStep, step_rejected (.inl h), h]

/-- Every other step of a stream in frame is the unit's step, and the stream stays in frame. -/
theorem streamStep_inFrame {s t : State} (h : ∀ rest, decode s.cmdPort ≠ .unknownOpcode rest) (hs : step s = .next t) :
    streamStep (.inFrame s) = some (.inFrame t) := by
  simp only [streamStep, hs]
  split
  · next rest hd => exact absurd hd (h rest)
  all_goals rfl

@[simp] theorem streamStep_lost (s : State) : streamStep (.lost s) = none := rfl

end Sys2Proof.Machine
end

