-- ==== Sys2Proof/Laws/Text.lean ====
section
/-! SUPPORT. Digits read back as they were written; which values the assembler's fields and vectors take. -/

namespace Sys2Proof.Machine

theorem digitValue_hexDigit (n : Fin 16) : digitValue 16 (hexDigit n.val) = some n.val := by
  revert n; decide

theorem fieldOf_eq_some_iff {n v : Nat} {x : BitVec n} : fieldOf n v = some x ↔ v < 2 ^ n ∧ x = BitVec.ofNat n v := by
  unfold fieldOf; split <;> simp_all [eq_comm]

theorem vectorOf_eq_some_iff {w v : Nat} {x : List Word} :
    vectorOf w v = some x ↔ v < 2 ^ w ∧ x = vecWords (BitVec.ofNat w v) := by
  unfold vectorOf; split <;> simp_all [eq_comm]

/-- The degree words of a line: every degree fits a word, and they stand in the order written (R81, R82). -/
theorem mapM_fieldOf_eq_some_iff {n : Nat} (ds : List Nat) (xs : List (BitVec n)) :
    ds.mapM (fieldOf n) = some xs ↔ (∀ d ∈ ds, d < 2 ^ n) ∧ xs = ds.map (BitVec.ofNat n) := by
  induction ds generalizing xs with
  | nil => simp [eq_comm]
  | cons d ds ih =>
    rw [List.mapM_cons]
    simp only [Option.pure_def, Option.bind_eq_bind, Option.bind_eq_some_iff, fieldOf_eq_some_iff, ih, Option.some.injEq]
    constructor
    · rintro ⟨x, ⟨h1, rfl⟩, ys, ⟨h2, rfl⟩, rfl⟩
      exact ⟨by simpa using ⟨h1, h2⟩, rfl⟩
    · rintro ⟨h, rfl⟩
      exact ⟨_, ⟨h d (by simp), rfl⟩, _, ⟨fun e he => h e (by simp [he]), rfl⟩, rfl⟩

end Sys2Proof.Machine
end

