-- ==== Sys2Proof/Tests/Slice0.lean ====
section
/-! SUPPORT. Own tests. Every expected value is the spec's: the header words of R87, the vectors of 95_test_vectors.md (named
V-...), or a hand calculation from the named rule. Then, for every obligation with hypotheses, a witness that meets them. -/

open Sys2Proof Sys2Proof.Machine Sys2Proof.Safety

namespace Sys2Proof.Tests

/-! ### Helpers -/

/-- The power-on state with these words on the command port. -/
def port (ws : List Word) : State := { State.reset with cmdPort := ws }

/-- The words one step sends from a state. -/
def sentBy (s : State) : List Word :=
  match step s with
  | .next t => t.respPort.drop s.respPort.length
  | .fault _ => []
  | .refused _ => []

/-- The words one step from power-on answers a command with. -/
def reply (ws : List Word) : List Word := sentBy (port ws)

/-- A unit with a configured engine of width 3 (D = 1). -/
def small (reg p0 p1 : BitVec 3) (zf : Bool) (ws : List Word) : State :=
  { engine := some { d := 1, init := 1, poly0 := p0, poly1 := p1, reg := reg }, zf := zf, cmdPort := ws, respPort := [] }

/-- The regression engine of 95_test_vectors.md (D = 64). -/
def regression (reg : BitVec 66) (ws : List Word) : State :=
  { engine := some { d := 64, init := 0xFFFF0000FFFF0000, poly0 := 1, poly1 := 3, reg := reg }, zf := false, cmdPort := ws,
    respPort := [] }

/-- The outcome is this next state. -/
def nextIs (o : Result) (t : State) : Bool :=
  match o with
  | .next u => decide (u = t)
  | .fault _ => false
  | .refused _ => false

/-! ### WellFormed: an ill-formed term for each check -/

theorem test_wf_shr : (Instr.shr 66 1 [0]).wellFormed = false := by decide
theorem test_wf_xor : (Instr.xor 66 64 [0, 0] [0, 0]).wellFormed = false ∧ (Instr.xor 66 64 [0] [0]).wellFormed = false := by
  decide
theorem test_wf_and : (Instr.and 64 65 [0] [0]).wellFormed = false ∧ (Instr.and 65 64 [0] [0]).wellFormed = false := by decide
theorem test_wf_eq : (Instr.eq 1 1 [0] []).wellFormed = false ∧ (Instr.eq 1 1 [] [0]).wellFormed = false := by decide
theorem test_wf_lsb : (Instr.lsb 0 [0]).wellFormed = false := by decide
theorem test_wf_narrow : (Instr.narrow 128 64 [0]).wellFormed = false := by decide
theorem test_wf_widen : (Instr.widen 64 128 [0, 0]).wellFormed = false := by decide
theorem test_wf_buildpoly : (Instr.buildpoly 3 2 [0]).wellFormed = false := by decide
theorem test_wf_config : (Instr.config 63 [0] [0, 0] [0, 0]).wellFormed = false ∧
    (Instr.config 63 [0, 0] [0] [0, 0]).wellFormed = false ∧ (Instr.config 63 [0, 0] [0, 0] [0]).wellFormed = false := by decide
theorem test_wf_lfstep : (Instr.lfstep 64 [0, 0] [0]).wellFormed = false ∧ (Instr.lfstep 64 [0] [0, 0]).wellFormed = false := by
  decide
theorem test_wf_orbit : (Instr.orbit 65 [0] 1).wellFormed = false := by decide

/-! ### Decoding: words written out from the spec -/

/-- V-B1. -/
theorem test_decode_shr : decode [0x0100420011000000, 0xFFFF0000FFFF0000, 0x0000000000000000] =
    .command (.shr 66 17 [0xFFFF0000FFFF0000, 0]) [] := by decide
/-- V-B16: the second vector has the words of its own width. -/
theorem test_decode_xor : decode [0x0200420040000000, 0xFFFF0000FFFF0000, 0, 3, 9] =
    .command (.xor 66 64 [0xFFFF0000FFFF0000, 0] [3]) [9] := by decide
/-- V-B17. -/
theorem test_decode_and : decode [0x0300420042000000, 0xFFFF0000FFFF0000, 0, 0x00FF00FF00FF00FF, 0] =
    .command (.and 66 66 [0xFFFF0000FFFF0000, 0] [0x00FF00FF00FF00FF, 0]) [] := by decide
/-- V-B21. -/
theorem test_decode_eq : decode [0x0400420040000000, 0xFFFF0000FFFF0000, 0, 0xFFFF0000FFFF0000] =
    .command (.eq 66 64 [0xFFFF0000FFFF0000, 0] [0xFFFF0000FFFF0000]) [] := by decide
/-- V-B23. -/
theorem test_decode_lsb : decode [0x0500420000000000, 0, 2] = .command (.lsb 66 [0, 2]) [] := by decide
/-- V-B27. -/
theorem test_decode_narrow : decode [0x0600420040000000, 0xFFFF0000FFFF0000, 2] =
    .command (.narrow 66 64 [0xFFFF0000FFFF0000, 2]) [] := by decide
/-- V-B30. -/
theorem test_decode_widen : decode [0x0700400042000000, 0xFFFFFFFFFFFFFFFF] =
    .command (.widen 64 66 [0xFFFFFFFFFFFFFFFF]) [] := by decide
/-- V-P1 and V-P3. -/
theorem test_decode_buildpoly : decode [0x1000420001000000, 0x41] = .command (.buildpoly 66 1 [0x41]) [] ∧
    decode [0x1000030000000000] = .command (.buildpoly 3 0 []) [] := by decide
/-- V-H1. -/
theorem test_decode_config : decode [0x2000400000000000, 0xFFFF0000FFFF0000, 0, 1, 0, 3, 0] =
    .command (.config 64 [0xFFFF0000FFFF0000, 0] [1, 0] [3, 0]) [] := by decide
/-- R87: `UPDATE 3, 0xAA`, and a header with every CNT and DATA bit set. -/
theorem test_decode_update : decode [0x21000000000003AA] = .command (.update 3 0xAA) [] ∧
    decode [0x2100000000000FFF] = .command (.update 15 0xFF) [] := by decide
/-- R87. -/
theorem test_decode_digest : decode [0x2200000000000000] = .command .digest [] := by decide
/-- R87. -/
theorem test_decode_reset : decode [0x2300000000000000] = .command .reset [] := by decide
/-- R87. -/
theorem test_decode_rdstatus : decode [0x2400000000000000] = .command .rdstatus [] := by decide
/-- R87 and R62: V, then P. -/
theorem test_decode_lfstep : decode [0x3000030000000000, 6, 7] = .command (.lfstep 3 [6] [7]) [] := by decide
/-- R87 and R62: P, then BUDGET. -/
theorem test_decode_orbit : decode [0x3100030000000000, 7, 100] = .command (.orbit 3 [7] 100) [] := by decide

/-- R66: an unknown OP consumes its header only; a reserved bit (23 or 12) consumes header and payload. -/
theorem test_decode_rejects : decode [0x0800420000000000, 5] = .unknownOpcode [5] ∧
    decode [0x0100420011800000, 1, 2, 5] = .reservedFieldSet [5] ∧
    decode [0x2100000000001000, 5] = .reservedFieldSet [5] ∧ decode [0x0100420011000000, 1] = .incomplete := by decide

/-- Every row's table word decodes to the row's command, and `withFetchWord` puts it first on the port. -/
theorem test_table_words : decodeTableWord 64 0x2000400000000000 = some (.config 64 [0, 0] [0, 0] [0, 0]) ∧
    decodeTableWord 64 0x21000000000008AA = some (.update 8 0xAA) ∧ decodeTableWord 64 0xFF00000000000000 = none ∧
    (State.reset.withFetchWord 64 0x3100030000000000).cmdPort = [0x3100030000000000, 0, 0] := by decide

/-- The table's rows are apart: no header matches two of them. -/
theorem test_rows_apart : opcodeTable.Pairwise fun a b => a.pattern &&& (a.mask &&& b.mask) ≠ b.pattern &&& (a.mask &&& b.mask) := by
  decide

/-! ### One step each: vectors of 95_test_vectors.md -/

/-- V-B1 and V-B4. -/
theorem test_shr : reply [0x0100420011000000, 0xFFFF0000FFFF0000, 0] = [0x0000420000000000, 0x00007FFF80007FFF, 0] ∧
    reply [0x0100420043000000, 0xFFFF0000FFFF0000, 0] = [0x0500000000000000] := by decide
/-- V-B6: a bit crosses the word boundary; V-B13: a vector that is not canonical. -/
theorem test_shr_edges : reply [0x0100420041000000, 1, 2] = [0x0000420000000000, 1, 0] ∧
    reply [0x0100420011000000, 0xFFFF0000FFFF0000, 4] = [0x0200000000000000] := by decide
/-- V-B14 and V-B16. -/
theorem test_xor : reply [0x0200420042000000, 0xFFFF0000FFFF0000, 0, 3, 2] = [0x0000420000000000, 0xFFFF0000FFFF0003, 2] ∧
    reply [0x0200420040000000, 0xFFFF0000FFFF0000, 0, 3] = [0x0200000000000000] := by decide
/-- V-B17. -/
theorem test_and : reply [0x0300420042000000, 0xFFFF0000FFFF0000, 0, 0x00FF00FF00FF00FF, 0] =
    [0x0000420000000000, 0x00FF000000FF0000, 0] := by decide
/-- V-B19, V-B20 and V-B21. -/
theorem test_eq : reply [0x0400420042000000, 0xFFFF0000FFFF0000, 0, 0xFFFF0000FFFF0000, 0] = [0x0000000000000001] ∧
    reply [0x0400420042000000, 0xFFFF0000FFFF0000, 0, 0xFFFF0000FFFF0000, 1] = [0x0000000000000000] ∧
    reply [0x0400420040000000, 0xFFFF0000FFFF0000, 0, 0xFFFF0000FFFF0000] = [0x0200000000000000] := by decide
/-- V-B23, V-B24 and V-B26. -/
theorem test_lsb : reply [0x0500420000000000, 0, 2] = [0x0000000000000041] ∧
    reply [0x0500420000000000, 0, 1] = [0x0000000000000040] ∧ reply [0x0500420000000000, 0, 0] = [0x0100000000000000] := by decide
/-- V-B27, V-B28 and V-B29. -/
theorem test_narrow : reply [0x0600420040000000, 0xFFFF0000FFFF0000, 2] = [0x0000400000000000, 0xFFFF0000FFFF0000] ∧
    reply [0x0600420042000000, 0xFFFF0000FFFF0000, 0] = [0x0200000000000000] ∧
    reply [0x0600420000000000, 0xFFFF0000FFFF0000, 0] = [0x0200000000000000] := by decide
/-- V-B30 and V-B31. -/
theorem test_widen : reply [0x0700400042000000, 0xFFFFFFFFFFFFFFFF] = [0x0000420000000000, 0xFFFFFFFFFFFFFFFF, 0] ∧
    reply [0x0700400040000000, 0xFFFFFFFFFFFFFFFF] = [0x0200000000000000] := by decide
/-- V-P2, V-P8 and V-P12. -/
theorem test_buildpoly : reply [0x1000420001000000, 0x40] = [0x0000420000000000, 3, 0] ∧
    reply [0x1000420001000000, 0] = [0x0000420000000000, 1, 2] ∧
    reply [0x1000050003000000, 0, 2, 4] = [0x0000050000000000, 0x15] := by decide
/-- V-P7 and V-P10. -/
theorem test_buildpoly_errors : reply [0x1000030002000000, 0, 0xFFFFFFFFFFFFFFFF] = [0x0300000000000000] ∧
    reply [0x1000000000000000] = [0x0200000000000000] := by decide
/-- V-H1: CONFIG loads REG with INIT. -/
theorem test_config : nextIs (step (port [0x2000400000000000, 0xFFFF0000FFFF0000, 0, 1, 0, 3, 0]))
    { regression 0xFFFF0000FFFF0000 [] with respPort := [0] } = true := by decide
/-- S1: the regression byte, all eight bits. -/
theorem test_update : nextIs (step (regression 0xFFFF0000FFFF0000 [0x21000000000008AA]))
    { regression 0x7FFF8003 [] with respPort := [8] } = true := by decide
/-- R145 by hand: 0b011 shifted by 1 is 0b001 = POLY0, so the first 0 bit leaves 0 and the second fails with SCALAR 1. -/
theorem test_update_zero : nextIs (step (small 3 1 1 false [0x2100000000000400]))
    { small 0 1 1 true [] with respPort := [0x0100000000000001] } = true := by decide
/-- S1: the regression digest. -/
theorem test_digest : sentBy (regression 0x7FFF8003 [0x2200000000000000]) = [0x0000400000000000, 0x000000007FFF8003] ∧
    reply [0x2200000000000000] = [0x0600000000000000] := by decide
/-- R147: REG ← INIT, ZF stays (D14). -/
theorem test_reset : nextIs (step (small 0 1 1 true [0x2300000000000000]))
    { small 1 1 1 true [] with respPort := [0] } = true := by decide
/-- R148: D = 1, ZF = 1, CFG = 1; and STATUS is 0 at power-on. -/
theorem test_rdstatus : sentBy (small 0 1 1 true [0x2400000000000000]) = [0x0000000000010003] ∧
    reply [0x2400000000000000] = [0] := by decide
/-- R171 by hand: 3 >> 1 = 1, bit 0 was 1, so 1 xor 7 = 6; and 6 >> 1 = 3, bit 0 was 0. -/
theorem test_lfstep : reply [0x3000030000000000, 3, 7] = [0x0000030000000000, 6] ∧
    reply [0x3000030000000000, 6, 7] = [0x0000030000000000, 3] := by decide
/-- R175: period 4; R172: the budget 3 gives S_BUDGET with COUNT 3. -/
theorem test_orbit : reply [0x3100030000000000, 7, 100] = [0x0000030000000000, 4, 1, 7, 4, 2] ∧
    reply [0x3100030000000000, 7, 3] = [0x0800030000000000, 3, 1, 7, 4] := by decide
/-- R66: an unknown OP. -/
theorem test_illegal : nextIs (step (port [0xFF00000000000000, 5]))
    { port [5] with respPort := [0x0700000000000000] } = true := by decide

/-- The words two steps from power-on send. -/
def replyTwice (ws : List Word) : List Word :=
  match Sys2Proof.core.run 2 (port ws) with
  | .next t => t.respPort
  | .fault _ => []
  | .refused _ => []

/-- V-E1, V-E2 and V-E3: after an unknown OP the next word is read as a header (R71). -/
theorem test_after_unknown_op : replyTwice [0x0000000000000000, 0x2400000000000000] = [0x0700000000000000, 0] ∧
    replyTwice [0xFF00000000000000, 0x2400000000000000] = [0x0700000000000000, 0] ∧
    replyTwice [0x0800420000000000, 0x0000000000000001] = [0x0700000000000000, 0x0700000000000000] := by decide

/-- U10: the host's stream takes one step over V-E1's unknown OP and no second. -/
theorem test_stream_stuck : (streamStep (.inFrame (port [0x0000000000000000, 0x2400000000000000]))).isSome = true ∧
    (streamStep (.inFrame (port [0x0000000000000000, 0x2400000000000000]))).bind streamStep = none := by decide

/-! ### Text: R81, R82, R86 -/

/-- R87 and R82: `XOR 66/64` and a literal that does not fit. -/
theorem test_assemble : assembleText "xor 66/64, 0xFFFF0000FFFF0000, 0b11 ; widths differ".toList =
      some [0x0200420040000000, 0xFFFF0000FFFF0000, 0, 3] ∧
    assembleText "UPDATE 8, 0x1_00".toList = none := by decide
/-- R84: a command in the syntax of R81, a rejected header as `.word`. -/
theorem test_disassemble : disassemble [0x2100000000000101] = some (["UPDATE 1, 0x01".toList], []) ∧
    disassemble [0xFF00000000000000] = some ([".word 0xFF00000000000000".toList], []) := by decide
/-- R86: 66 bits print as 32 digits. -/
theorem test_render : render (0x2FFFF0000FFFF0003#66) = "0000000000000002FFFF0000FFFF0003".toList := by decide

/-! ### Witnesses: for every obligation with hypotheses, values that meet them -/

/-- The words that a vector is sent in carry it. -/
theorem carries_of {w : Nat} (v : BitVec w) {ws : List Word} (h : vecWords v = ws) : Carries ws v := h ▸ carries_vecWords v

theorem widthOk_of {w : Nat} (h : widthInRange w = true) : WidthOk w := (widthInRange_iff w).mp h

theorem not_widthOk_of {w : Nat} (h : widthInRange w = false) : ¬WidthOk w :=
  fun hw => by rw [(widthInRange_iff w).mpr hw] at h; exact absurd h (by decide)

theorem consumes_of {n : Nat} {p0 p1 r r' : BitVec n} {bs : List Bool}
    (h : feedBits p0 p1 r bs = { reg := r', consumed := bs.length, zeroScan := false }) : Consumes p0 p1 r bs r' := by
  rcases feedBits_cases p0 p1 r bs with ⟨-, -, hc⟩ | ⟨hz, -⟩
  · rwa [h] at hc
  · rw [h] at hz; simp at hz

/-- The 66-bit vector of the spec's examples. -/
def vecA : BitVec 66 := 0xFFFF0000FFFF0000
/-- Its words. -/
def wordsA : List Word := [0xFFFF0000FFFF0000, 0]

theorem carriesA : Carries wordsA vecA := carries_of vecA (by decide)
theorem nonCanonicalA : NonCanonical 66 [0, 4] := ⟨by decide, 66, by decide, by decide⟩
theorem ok66 : WidthOk 66 := widthOk_of (by decide)
theorem ok3 : WidthOk 3 := widthOk_of (by decide)
theorem notOk0 : ¬WidthOk 0 := not_widthOk_of (by decide)
theorem period4 : HasPeriod (7#3) 4 := ⟨by decide, by decide, by intro k h1 h2; interval_cases k <;> decide⟩
theorem period7 : HasPeriod (5#3) 7 := ⟨by decide, by decide, by intro k h1 h2; interval_cases k <;> decide⟩

/-- One well-formed command of each constructor. -/
def samples : List Instr := [.shr 66 17 wordsA, .xor 66 64 wordsA [3], .and 66 66 wordsA wordsA, .eq 1 1 [1] [1], .lsb 66 [0, 2],
  .narrow 66 64 wordsA, .widen 64 66 [5], .buildpoly 3 2 [0, 1], .config 64 wordsA [1, 0] [3, 0], .update 15 255, .digest, .reset,
  .rdstatus, .lfstep 3 [6] [7], .orbit 3 [7] 100]

theorem witness_DecodeOfEncodeIsTheCommand : ∀ i ∈ samples, i.wellFormed = true := by decide

theorem witness_DecodedWordsAreTheEncoding : ∀ i ∈ samples, decode (encode i ++ [7]) = .command i [7] := by decide

theorem witness_SpecHeaderWords : (Instr.config 64 wordsA [1, 0] [3, 0]).wellFormed = true ∧
    (regression vecA []).engine.map (·.d) = some 64 := by decide

theorem witness_HeaderFieldsArePlaced : decode (0x21000000000003AA :: [1]) = .command (.update 3 0xAA) [1] := by decide

/-- OP values just outside the rows of R65, and the ends of the range. -/
theorem witness_OpcodeMapIsTheSpecs : [0x0000000000000000#64, 0x0800000000000000#64, 0x0F00000000000000#64,
      0x1100000000000000#64, 0x2500000000000000#64, 0x3200000000000000#64, 0xFF00000000000000#64].all (fun cw =>
    decide ((port (cw :: [5])).cmdPort = cw :: [5]) && decide (opOf cw ∉
      [0x01, 0x02, 0x03, 0x04, 0x05, 0x06, 0x07, 0x10, 0x20, 0x21, 0x22, 0x23, 0x24, 0x30, 0x31])) = true := by decide

/-- A payload of two words, exactly there; and an empty one. -/
theorem witness_KnownOpcodeConsumesItsPayload :
    ((port (0x0100420011000000 :: wordsA)).cmdPort = 0x0100420011000000 :: wordsA ∧
      payloadLenOf 0x0100420011000000 = some 2 ∧ 2 ≤ wordsA.length) ∧
    (port [0x2200000000000000]).cmdPort = [0x2200000000000000] ∧ payloadLenOf 0x2200000000000000 = some 0 ∧
      0 ≤ ([] : List Word).length := by decide

/-- The lowest and the highest reserved bit, CNT or DATA of a command without them, X and WA where unused. -/
theorem witness_DecodeCheckComesFirst :
    payloadLenOf 0xFF00000000000000 = none ∧
    (payloadLenOf 0x2100000000001000 = some 0 ∧ (0x2100000000001000#64).toNat / 2 ^ 12 % 2 ^ 12 ≠ 0 ∧
      payloadLenOf 0x2100000000800000 = some 0 ∧ (0x2100000000800000#64).toNat / 2 ^ 12 % 2 ^ 12 ≠ 0) ∧
    (payloadLenOf 0x2200000000000001 = some 0 ∧ opOf 0x2200000000000001 ≠ 0x21 ∧ (0x2200000000000001#64).toNat % 2 ^ 12 ≠ 0 ∧
      payloadLenOf 0x2200000000000800 = some 0 ∧ (0x2200000000000800#64).toNat % 2 ^ 12 ≠ 0) ∧
    (payloadLenOf 0x0500420001000000 = some 2 ∧ opOf 0x0500420001000000 = 0x05 ∧ xOf 0x0500420001000000 ≠ 0) ∧
    (payloadLenOf 0x2100010000000000 = some 0 ∧ opOf 0x2100010000000000 = 0x21 ∧ waOf 0x2100010000000000 ≠ 0) ∧
    (payloadLenOf 0x0500420000000000 = some 2 ∧ 2 ≤ wordsA.length ∧ (0x0500420000000000#64).toNat / 2 ^ 12 % 2 ^ 12 = 0 ∧
      (0x0500420000000000#64).toNat % 2 ^ 12 = 0 ∧ xOf 0x0500420000000000 = 0) ∧
    ∀ j < (3#4).toNat, (0xAA#8).getLsbD j = (0xFA#8).getLsbD j := by decide

theorem witness_StepRunsTheDecodedCommand : ∀ i ∈ samples, i.wellFormed = true ∧ (port (encode i ++ [7])).cmdPort = encode i ++ [7] ∧
    decode (port (encode i ++ [7])).cmdPort = .command i [7] := by decide

theorem witness_UnitWaitsForAWholeCommand : (port []).cmdPort = [] ∧
    (port [0x0100420011000000, 1]).cmdPort = 0x0100420011000000 :: [1] ∧ payloadLenOf 0x0100420011000000 = some 2 ∧
    [(1 : Word)].length < 2 := by decide

theorem witness_VectorCrossesInWords : wordsA.length = nw 66 ∧ readVec 66 wordsA = some vecA ∧ ([0, 4] : List Word).length = nw 66 ∧
    readVec 66 [0, 4] = none := by decide

/-- Vectors that differ in word 1 only. -/
theorem witness_EqualityIsWordWise : WidthOk (66#16).toNat ∧ Carries wordsA vecA ∧
    Carries [0xFFFF0000FFFF0000, 1] (0x1FFFF0000FFFF0000#66) :=
  ⟨ok66, carriesA, carries_of _ (by decide)⟩

/-- K = 0, K = W and K = W + 1; W = 0 and a bit above W; a header with bit 0 set. -/
theorem witness_ShrShiftsRightLogically : WidthOk (66#16).toNat ∧ Carries wordsA vecA ∧ (0#16).toNat ≤ (66#16).toNat ∧
    (66#16).toNat ≤ (66#16).toNat ∧ (66#16).toNat < (67#16).toNat ∧ ¬WidthOk (0#16).toNat ∧ NonCanonical 66 [0, 4] ∧
    opOf 0x0100420011000001 = 0x01 ∧ nw (waOf 0x0100420011000001) ≤ wordsA.length ∧ (0x0100420011000001#64).toNat % 2 ^ 24 ≠ 0 :=
  ⟨ok66, carriesA, by decide, by decide, by decide, notOk0, nonCanonicalA, by decide, by decide, by decide⟩

/-- The conditions of the two-operand commands: widths 66 and 64, W = 0, a bit above W; a header with CNT bit 3 set. -/
def TwoOperandWitness (op : Nat) : Prop :=
  WidthOk (66#16).toNat ∧ Carries wordsA vecA ∧ (66#16) ≠ 64#16 ∧ ¬WidthOk (0#16).toNat ∧ NonCanonical 66 [0, 4] ∧
    opOf (headerNumber op 66 64 8 0) = op ∧
    nw (waOf (headerNumber op 66 64 8 0)) + nw (xOf (headerNumber op 66 64 8 0)) ≤ (wordsA ++ [3]).length ∧
    (headerNumber op 66 64 8 0).toNat % 2 ^ 24 ≠ 0

theorem witness_XorIsBitwise : TwoOperandWitness 0x02 :=
  ⟨ok66, carriesA, by decide, notOk0, nonCanonicalA, by decide, by decide, by decide⟩

theorem witness_AndIsBitwise : TwoOperandWitness 0x03 :=
  ⟨ok66, carriesA, by decide, notOk0, nonCanonicalA, by decide, by decide, by decide⟩

/-- Equal vectors, and vectors that differ in bit 65 only. -/
theorem witness_EqComparesVectors : TwoOperandWitness 0x04 ∧ 65 < 66 ∧ (0x2FFFF0000FFFF0000#66).getLsbD 65 ≠ vecA.getLsbD 65 :=
  ⟨⟨ok66, carriesA, by decide, notOk0, nonCanonicalA, by decide, by decide, by decide⟩, by decide, by decide⟩

/-- The bit 65 only, the zero vector, the two E_WIDTH cases, a header with bit 39 set. -/
theorem witness_LsbFindsTheLowestSetBit : WidthOk (66#16).toNat ∧ Carries [0, 2] (0x20000000000000000#66) ∧
    (0x20000000000000000#66) ≠ 0 ∧ Carries [0, 0] (0 : BitVec 66) ∧ ¬WidthOk (0#16).toNat ∧ NonCanonical 66 [0, 4] ∧
    opOf 0x0500428000000000 = 0x05 ∧ nw (waOf 0x0500428000000000) ≤ wordsA.length ∧ (0x0500428000000000#64).toNat % 2 ^ 40 ≠ 0 :=
  ⟨ok66, carries_of _ (by decide), by decide, carries_of _ (by decide), notOk0, nonCanonicalA, by decide, by decide, by decide⟩

/-- M = 1, M = W − 1; M = 0 and M = W. -/
theorem witness_NarrowKeepsTheLowBits : WidthOk (66#16).toNat ∧ Carries wordsA vecA ∧
    (1 ≤ (1#16).toNat ∧ (65#16).toNat < (66#16).toNat) ∧
    ¬(1 ≤ (0#16).toNat ∧ (0#16).toNat < (66#16).toNat) ∧ ¬(1 ≤ (66#16).toNat ∧ (66#16).toNat < (66#16).toNat) ∧
    opOf 0x0600420040000001 = 0x06 ∧ nw (waOf 0x0600420040000001) ≤ wordsA.length ∧ (0x0600420040000001#64).toNat % 2 ^ 24 ≠ 0 :=
  ⟨ok66, carriesA, by decide, by decide, by decide, by decide, by decide, by decide⟩

/-- M = W + 1 ≤ NMAX; M = W. -/
theorem witness_WidenZeroExtends : WidthOk (65#16).toNat ∧ Carries [1, 1] (0x10000000000000001#65) ∧
    (65#16).toNat < (66#16).toNat ∧ (66#16).toNat ≤ nmax ∧ ¬((65#16).toNat < (65#16).toNat ∧ (65#16).toNat ≤ nmax) ∧
    opOf 0x0700400042000001 = 0x07 ∧ nw (waOf 0x0700400042000001) ≤ wordsA.length ∧ (0x0700400042000001#64).toNat % 2 ^ 24 ≠ 0 :=
  ⟨widthOk_of (by decide), carries_of _ (by decide), by decide, by decide, by decide, by decide, by decide, by decide⟩

/-- 1 + 65 = W and 1 + 66 > W; the first shift answers OK. -/
theorem witness_ShiftAndXorLaws : WidthOk (66#16).toNat ∧ Carries wordsA vecA ∧ Carries [0, 0] (0 : BitVec 66) ∧
    (66#16).toNat = (1#16).toNat + (65#16).toNat ∧ (1#16).toNat + (65#16).toNat ≤ (66#16).toNat ∧
    (67#16).toNat = (1#16).toNat + (66#16).toNat ∧ (66#16).toNat < (1#16).toNat + (66#16).toNat ∧
    Answers (.shr 66 1 wordsA) (port []) 0 66 0 [0x7FFF80007FFF8000, 0] :=
  ⟨ok66, carriesA, carries_of _ (by decide), by decide, by decide, by decide, by decide, rfl⟩

/-- Degrees 0 and N − 1; a degree N beside a good one; W = 0. -/
theorem witness_BuildpolySetsTheDegreeBits : WidthOk (66#16).toNat ∧ (∀ d ∈ [0#64, 65#64], d.toNat < (66#16).toNat) ∧
    (∃ d ∈ [0#64, 66#64], (66#16).toNat ≤ d.toNat) ∧ ¬WidthOk (0#16).toNat ∧
    opOf 0x1000030001000001 = 0x10 ∧ xOf 0x1000030001000001 ≤ [(0 : Word)].length ∧ (0x1000030001000001#64).toNat % 2 ^ 24 ≠ 0 :=
  ⟨ok66, by simp, ⟨66, by simp, by decide⟩, notOk0, by decide, by decide, by decide⟩

theorem witness_BuilderOutputsAreThePolynomials : Answers (.buildpoly 3 2 [0, 1]) (port []) 0 (3#16).toNat 0 [7] ∧
    WidthOk (3#16).toNat ∧ Carries [7] (7#3) ∧ (7#3).getLsbD 0 = true ∧ Carries [1] (BitVec.ofNat 3 1) :=
  ⟨rfl, ok3, carries_of _ (by decide), by decide, carries_of _ (by decide)⟩

/-- D = 64 with N = 66; D = 0; a polynomial with bit 0 clear; a vector that is not canonical; a header with bit 0 set. -/
theorem witness_ConfigBuildsTheEngine : 1 ≤ (64#16).toNat ∧ (64#16).toNat + 2 ≤ nmax ∧ Carries wordsA vecA ∧
    Carries [1, 0] (1#66) ∧ Carries [3, 0] (3#66) ∧ (1#66).getLsbD 0 = true ∧ (3#66).getLsbD 0 = true ∧
    Carries [2, 0] (2#66) ∧ (2#66).getLsbD 0 = false ∧ ¬(1 ≤ (0#16).toNat ∧ (0#16).toNat + 2 ≤ nmax) ∧ NonCanonical 66 [0, 4] ∧
    opOf 0x2000010000000001 = 0x20 ∧ 3 * nw (waOf 0x2000010000000001 + 2) ≤ [1, 1, (1 : Word)].length ∧
    (0x2000010000000001#64).toNat % 2 ^ 40 ≠ 0 :=
  ⟨by decide, by decide, carriesA, carries_of _ (by decide), carries_of _ (by decide), by decide, by decide,
    carries_of _ (by decide), by decide, by decide, nonCanonicalA, by decide, by decide, by decide⟩

theorem witness_HashStepShiftsPastTheLowestSetBit : (6#3) ≠ 0 := by decide

/-- Eight bits consumed; a zero register met at bit 1 and at bit 0; CNT = 9; a header with bit 12 set. -/
theorem witness_UpdateConsumesItsBits :
    (regression vecA []).engine ≠ none ∧ (8#4).toNat ≤ 8 ∧
    Consumes (1#66) (3#66) vecA (bitsOf [0xAA] 8) (0x7FFF8003#66) ∧
    Consumes (1#3) (1#3) (3#3) (bitsOf [0] 1) 0 ∧ 1 < (8#4).toNat ∧ Consumes (1#3) (1#3) (0#3) (bitsOf [0] 0) 0 ∧
    (port []).engine = none ∧ 8 < (9#4).toNat ∧
    opOf 0x2100000000001000 = 0x21 ∧ (0x2100000000001000#64).toNat / 2 ^ 12 % 2 ^ 44 ≠ 0 :=
  ⟨by decide, by decide, consumes_of (by decide), consumes_of (by decide), by decide, .nil _, rfl, by decide, by decide, by decide⟩

theorem witness_ZeroRegisterFailsEveryUpdate : (small 0 1 1 false []).engine.map (·.reg.toNat) = some 0 ∧
    1 ≤ (1#4).toNat ∧ (8#4).toNat ≤ 8 ∧ (∃ t, exec .digest (small 0 1 1 false []) = .next t) ∧ Instr.digest ≠ .reset ∧
    isConfig .digest = false :=
  ⟨by decide, by decide, by decide, ⟨_, rfl⟩, by decide, by decide⟩

theorem witness_DigestReturnsTheLowBits : (small 5 1 1 false []).engine.isSome = true ∧ (port []).engine = none ∧
    opOf 0x2200010000000000 = 0x22 ∧ (0x2200010000000000#64).toNat % 2 ^ 56 ≠ 0 := by decide

theorem witness_ResetLoadsInit : (small 5 1 1 false []).engine.isSome = true ∧ (port []).engine = none ∧
    opOf 0x2300000000000100 = 0x23 ∧ (0x2300000000000100#64).toNat % 2 ^ 56 ≠ 0 := by decide

theorem witness_RdstatusReturnsStatus : (small 5 1 1 true []).engine.isSome = true ∧ (port []).engine = none ∧
    opOf 0x2400000001000000 = 0x24 ∧ (0x2400000001000000#64).toNat % 2 ^ 56 ≠ 0 := by decide

theorem witness_HashCommandsNeedAnEngine : (port []).engine = none := rfl

/-- A split at a bit that is no byte boundary: 3 bits, then 8. -/
theorem witness_StreamingIsAssociative : (small 5 1 3 false []).cmdPort = [] ∧
    updateBitsExpansion [0xAA] 3 = some [.update 3 0xAA] ∧ updateBitsExpansion [0x99] 8 = some [.update 8 0x99] ∧
    updateBitsExpansion [0xCA, 0x04] 11 = some [.update 8 0xCA, .update 3 0x04] ∧
    bitsOf [0xCA, 0x04] (3 + 8) = bitsOf [0xAA] 3 ++ bitsOf [0x99] 8 := by decide

/-- Eleven bits; a partial byte; a zero register met at bit 1. -/
theorem witness_UpdateBitsConsumesTheBuffer : updateBitsExpansion [0xAA, 0x99] 11 = some [.update 8 0xAA, .update 3 0x99] ∧
    11 % 8 ≠ 0 ∧ 0 < 11 / 8 ∧ (small 3 1 1 false []).cmdPort = [] ∧
    Consumes (1#3) (1#3) (3#3) (bitsOf [0] 1) 0 ∧ 1 < 11 ∧ Consumes (1#3) (3#3) (5#3) (bitsOf [0xAA, 0x99] 3) (1#3) ∧
    (∃ t, issue (.update 1 0) (small 3 1 1 false []) = .next t ∧ newestStatus (small 3 1 1 false []) t = some 0) ∧
    ∃ t, issue (.update 4 0) (small 3 1 1 false []) = .next t ∧ newestStatus (small 3 1 1 false []) t ≠ some 0 :=
  ⟨by decide, by decide, by decide, rfl, consumes_of (by decide), by decide, consumes_of (by decide), ⟨_, rfl, by decide⟩,
    _, rfl, by decide⟩

theorem witness_ResetRestoresTheEmptyDigest : (small 5 1 3 true []).engine.isSome = true ∧
    ∀ i ∈ [Instr.update 8 0xAA, .digest, .reset], isConfig i = false := by decide

theorem witness_ZeroRegisterArises : IsLowestSetBit (3#3) 0 ∧ (1#3).getLsbD 0 = true ∧ hstep (3#3) (1#3) = some 0 :=
  ⟨⟨by decide, by decide⟩, by decide, by decide⟩

theorem witness_LfstepIsOneLfsrStep : WidthOk (3#16).toNat ∧ Carries [6] (6#3) ∧ Carries [7] (7#3) ∧ (7#3).getLsbD 0 = true ∧
    (6#3).getLsbD 0 = false ∧ ¬WidthOk (0#16).toNat ∧ NonCanonical 3 [8] ∧
    opOf 0x3000030000000001 = 0x30 ∧ 2 * nw (waOf 0x3000030000000001) ≤ [1, (1 : Word)].length ∧
    (0x3000030000000001#64).toNat % 2 ^ 40 ≠ 0 :=
  ⟨ok3, carries_of _ (by decide), carries_of _ (by decide), by decide, by decide, notOk0,
    ⟨by decide, 3, by decide, by decide⟩, by decide, by decide, by decide⟩

/-- A budget equal to the period, and one less; budget 0; a polynomial with bit 0 clear. -/
theorem witness_OrbitListsTheOrbit : WidthOk (3#16).toNat ∧ Carries [7] (7#3) ∧ (7#3).getLsbD 0 = true ∧ HasPeriod (7#3) 4 ∧
    4 ≤ (4#64).toNat ∧ (∀ k, 1 ≤ k → k ≤ (3#64).toNat → orbitValue (7#3) k ≠ BitVec.ofNat 3 1) ∧ (3#64) ≠ 0 ∧
    ¬WidthOk (0#16).toNat ∧ NonCanonical 3 [8] ∧ Carries [6] (6#3) ∧ (6#3).getLsbD 0 = false ∧
    opOf 0x3100030000000001 = 0x31 ∧ nw (waOf 0x3100030000000001) + 1 ≤ [1, (1 : Word)].length ∧
    (0x3100030000000001#64).toNat % 2 ^ 40 ≠ 0 :=
  ⟨ok3, carries_of _ (by decide), by decide, period4, by decide,
    fun k h1 h2 => period4.2.2 k h1 (Nat.lt_of_le_of_lt h2 (by decide)), by decide, notOk0,
    ⟨by decide, 3, by decide, by decide⟩, carries_of _ (by decide), by decide, by decide, by decide, by decide⟩

theorem witness_EveryOrbitCloses : (7#3).getLsbD 0 = true ∧ 2 ^ (3 - 1) ≤ (7#3).toNat ∧ (7#3).toNat < 2 ^ 3 ∧
    WidthOk (3#16).toNat ∧ Carries [7] (7#3) ∧ 2 ^ 3 - 1 ≤ (7#64).toNat :=
  ⟨by decide, by decide, by decide, ok3, carries_of _ (by decide), by decide⟩

theorem witness_PeriodIsBounded : (5#3).getLsbD 0 = true ∧ 2 ^ (3 - 1) ≤ (5#3).toNat ∧ (5#3).toNat < 2 ^ 3 ∧ HasPeriod (5#3) 7 ∧
    7 = 2 ^ 3 - 1 :=
  ⟨by decide, by decide, by decide, period7, by decide⟩

theorem witness_StepKeepsTheStateLegal : stateLegal (regression vecA [0x21000000000008AA]) = true ∧
    ∃ t, step (regression vecA [0x21000000000008AA]) = .next t := ⟨by decide, _, rfl⟩

theorem witness_EachCommandHasOneResponse : decode (port [0x2200000000000000, 5]).cmdPort = .command .digest [5] ∧
    decode (port [0xFF00000000000000, 5]).cmdPort = .unknownOpcode [5] ∧
    decode (port [0x2200000000000001, 5]).cmdPort = .reservedFieldSet [5] := by decide

/-- An error that changes nothing, and UPDATE's zero scan after one bit. -/
theorem witness_FailedCommandChangesNothing :
    (∃ t, exec (.update 9 0) (small 3 1 1 false []) = .next t ∧ newestStatus (small 3 1 1 false []) t = some 5) ∧
    ∃ t, exec (.update 4 0) (small 3 1 1 false []) = .next t ∧ newestStatus (small 3 1 1 false []) t = some 1 :=
  ⟨⟨_, rfl, by decide⟩, _, rfl, by decide⟩

theorem witness_ParametersChangeOnlyByConfig :
    (∃ t, exec .reset (small 5 1 3 false []) = .next t ∧ isConfig .reset = false) ∧
    ∃ t, exec (.config 1 [3] [1] [7]) (port []) = .next t :=
  ⟨⟨_, rfl, by decide⟩, _, rfl⟩

/-- UPDATE sets ZF, and CONFIG clears it. -/
theorem witness_ZfChangesOnlyByUpdateAndConfig :
    (∃ t, exec (.update 1 0) (small 0 1 1 false []) = .next t ∧ t.zf ≠ false) ∧
    ∃ t, exec (.config 1 [3] [1] [7]) (small 0 1 1 true []) = .next t ∧ t.zf ≠ true :=
  ⟨⟨_, rfl, by decide⟩, _, rfl, by decide⟩

theorem witness_PureCommandsIgnoreTheState : isPure (.shr 66 17 wordsA) = true ∧ isPure (.orbit 3 [7] 4) = true := by decide

theorem witness_OnlyUpdateIsNotIdempotent : isUpdate .reset = false ∧ isUpdate (.config 1 [3] [1] [7]) = false := by decide

theorem witness_HeadroomBitsAreHidden : (small 1 1 1 false []).engine.isSome = true ∧
    ∀ i < (1#16).toNat, (7#3).getLsbD i = (1#3).getLsbD i := by decide

/-- Each clause's errors apply together. -/
theorem witness_ErrorsFollowTheSpecsPriority :
    (payloadLenOf 0x2200000000001000 = some 0 ∧ (0x2200000000001000#64).toNat / 2 ^ 12 % 2 ^ 12 ≠ 0) ∧
    ((port []).engine = none ∧ 8 < (9#4).toNat) ∧
    (NonCanonical 66 [0, 4] ∧ (66#16).toNat < (67#16).toNat) ∧
    (∀ p < 66, bitAt [0, 4] p = false) ∧
    (¬WidthOk (0#16).toNat ∧ ∃ d ∈ [0#64], (0#16).toNat ≤ d.toNat) ∧
    (NonCanonical ((64#16).toNat + 2) [0, 4] ∧ bitAt [2, 0] 0 = false) ∧
    (NonCanonical 3 [8] ∧ bitAt [6] 0 = false ∧ bitAt [8] 0 = false) ∧
    ((small 0 1 1 false []).engine.map (·.reg.toNat) = some 0 ∧ 8 < (9#4).toNat) ∧
    (WidthOk (3#16).toNat ∧ Carries [6] (6#3) ∧ (6#3).getLsbD 0 = false) :=
  ⟨by decide, by decide, ⟨nonCanonicalA, by decide⟩, by decide, ⟨notOk0, 0, by simp, by decide⟩, ⟨nonCanonicalA, by decide⟩,
    ⟨⟨by decide, 3, by decide, by decide⟩, by decide, by decide⟩, by decide, ok3, carries_of _ (by decide), by decide⟩

/-- A line that assembles; the largest value of a literal, a field and a degree, and the one after each. -/
theorem witness_AssemblerNeverTruncates : assemble (.shr 3 7 1) = some [0x0100030001000000, 7] ∧
    (∀ v, AsmLine.shr 3 7 1 ≠ .word v) ∧ 7 < 2 ^ 3 ∧ 2 ^ 3 ≤ 8 ∧
    assemble (.narrow 3 65535 7) = some [0x060003FFFF000000, 7] ∧ assemble (.narrow 3 65536 7) = none ∧
    assemble (.buildpoly 3 [18446744073709551615]) = some [0x1000030001000000, 0xFFFFFFFFFFFFFFFF] ∧
    assemble (.buildpoly 3 [18446744073709551616]) = none ∧ assemble (.updatebit 1) = some [0x2100000000000101] ∧
    assemble (.updatebit 2) = none :=
  ⟨by decide, by intro v h; exact absurd h (by simp), by decide, by decide, by decide, by decide, by decide, by decide,
    by decide, by decide⟩

/-- V-E1's words, and V-E3's. -/
theorem witness_WordAfterUnknownOpIsAHeader :
    (port [0x0000000000000000, 0x2400000000000000]).cmdPort = 0x0000000000000000 :: encode .rdstatus ∧
    payloadLenOf 0x0000000000000000 = none ∧ Instr.rdstatus.wellFormed = true ∧
    (port [0x0800420000000000, 0x0000000000000001]).cmdPort = 0x0800420000000000 :: [0x0000000000000001] ∧
    payloadLenOf 0x0800420000000000 = none ∧ payloadLenOf 0x0000000000000001 = none := by decide

/-- An unknown OP, a known one with its payload still to come, and no word. -/
theorem witness_UnknownOpLeavesTheStreamStuck :
    (port [0x0800420000000000, 0x0000000000000001]).cmdPort = 0x0800420000000000 :: [0x0000000000000001] ∧
    payloadLenOf 0x0800420000000000 = none ∧
    (port [0x0500420000000000]).cmdPort = 0x0500420000000000 :: [] ∧ payloadLenOf 0x0500420000000000 = some 2 ∧
    (port []).cmdPort = [] := by decide

end Sys2Proof.Tests
end

/-! SUPPORT. Legality of the state: what it depends on, and that every effect of a command and every step keep it. -/

namespace Sys2Proof.Safety

open Sys2Proof.Machine

/-- Legality reads the engine and ZF only, so neither port matters. -/
theorem stateLegal_congr {s t : State} (he : t.engine = s.engine) (hz : t.zf = s.zf) : stateLegal t = stateLegal s := by
  unfold stateLegal
  rw [he, hz]

/-- With an engine, legality is the engine's; ZF is free. -/
theorem stateLegal_of_engine_some {s : State} {e : Engine} (he : s.engine = some e) : stateLegal s = engineLegal e := by
  unfold stateLegal
  rw [he]

/-- REG is no part of an engine's legality (R27 speaks of the Parameters). -/
theorem engineLegal_withReg (e : Engine) (r : BitVec (e.d.toNat + 2)) :
    engineLegal { e with reg := r } = engineLegal e := rfl

/-- A new REG in the configured engine keeps legality, whatever becomes of ZF: UPDATE, its zero scan, and RESET. -/
theorem stateLegal_of_newReg {s t : State} {e : Engine} {r : BitVec (e.d.toNat + 2)} (he : s.engine = some e)
    (ht : t.engine = some { e with reg := r }) : stateLegal t = stateLegal s := by
  rw [stateLegal_of_engine_some ht, engineLegal_withReg, stateLegal_of_engine_some he]

/-- No effect of a command makes a legal state illegal: CONFIG installs a legal engine, the others keep the Parameters. -/
theorem effect_keeps_stateLegal {i : Instr} {s t : State} {st : Nat} (h : Effect i s t st) (hs : stateLegal s = true) :
    stateLegal t = true := by
  rcases h with ⟨he, hz⟩ | ⟨-, -, e, hlegal, ht, -⟩ | ⟨-, -, e, r, he, ht, -⟩ | ⟨-, -, e, he, ht, -⟩ | ⟨-, -, e, he, ht, -⟩
  · rwa [stateLegal_congr he hz]
  · rwa [stateLegal_of_engine_some ht]
  all_goals rwa [stateLegal_of_newReg he ht]

theorem exec_keeps_stateLegal {i : Instr} {s t : State} (hs : stateLegal s = true) (h : exec i s = .next t) :
    stateLegal t = true := by
  obtain ⟨t', st, _, _, _, ht', -, -, -, heff⟩ := exec_cases i s
  obtain rfl : t' = t := Host.Outcome.next.inj (ht'.symm.trans h)
  exact effect_keeps_stateLegal heff hs

theorem step_keeps_stateLegal {s t : State} (hs : stateLegal s = true) (h : step s = .next t) : stateLegal t = true := by
  rcases step_cases s with ⟨i, rest, -, hstep⟩ | ⟨rest, -, hstep⟩ | ⟨-, hstep⟩
  · exact exec_keeps_stateLegal (s := s.setCmdPort rest) hs (hstep.symm.trans h)
  · obtain rfl := Host.Outcome.next.inj (hstep.symm.trans h)
    exact hs
  · obtain rfl := Host.Outcome.next.inj (hstep.symm.trans h)
    exact hs

end Sys2Proof.Safety

namespace Sys2Proof.Proofs

/-- Settles O41: `step_cases` and `exec_cases` list all that a step can do, and each of it keeps legality. -/
theorem stepKeepsTheStateLegal : Obligations.StepKeepsTheStateLegal :=
  fun _ _ => Sys2Proof.Safety.step_keeps_stateLegal

end Sys2Proof.Proofs

/-! SUPPORT. The decoder reads back the words of every well-formed command. -/

namespace Sys2Proof.Laws

/-- A well-formed command is read back from its words, whatever words follow (R60 to R68): its header is legal, its payload
is as long as the header says, and cutting the payload gives the operands back. -/
theorem decode_encode_append {i : Instr} (rest : List Word) (h : i.wellFormed = true) :
    decode (encode i ++ rest) = .command i rest := by
  obtain ⟨hcode, hclear⟩ := LegalHeader.all i
  have hlen : payloadLen i.opcode i.header = i.payload.length := PayloadFits.all i h
  have henough : payloadLen i.opcode i.header ≤ (i.payload ++ rest).length := by simp [hlen]
  rw [encode, List.cons_append, decode_legal hcode henough hclear, hlen, List.take_left, List.drop_left,
    OperandsReadBack.all i h]

end Sys2Proof.Laws

/-! SUPPORT. Commands that ignore the state (R33): the meanings that answer one and the same response everywhere. -/

namespace Sys2Proof.Machine

open Sys2Proof.Safety

/-- The meaning answers one response, the same in every state, and changes nothing but the response port. -/
def RespondsAlike (f : State → Result) : Prop := ∃ r : Response, ∀ s, f s = .next (s.send r)

theorem RespondsAlike.respond (st : Status) (w : BitVec 16) (sc : BitVec 32) (ws : List Word) :
    RespondsAlike (Machine.respond st w sc ws) := ⟨_, fun _ => rfl⟩

theorem RespondsAlike.raise (e : Status) (info : BitVec 32) : RespondsAlike (Machine.raise e info) := .respond e 0 info []

/-- A check that does not read the state, between two such meanings. -/
theorem RespondsAlike.ite {c : Prop} [Decidable c] {f g : State → Result} (hf : RespondsAlike f) (hg : RespondsAlike g) :
    RespondsAlike fun s => if c then f s else g s := by
  split
  · exact hf
  · exact hg

theorem respondsAlike_shr (w k : BitVec 16) (a : List Word) : RespondsAlike (execShr w k a) := by
  unfold execShr
  cases readOperand w a with
  | none => exact .raise ..
  | some v => exact .ite (.raise ..) (.respond ..)

theorem respondsAlike_xor (wa wb : BitVec 16) (a b : List Word) : RespondsAlike (execXor wa wb a b) := by
  unfold execXor
  cases readOperands wa wb a b with
  | none => exact .raise ..
  | some v => exact .respond ..

theorem respondsAlike_and (wa wb : BitVec 16) (a b : List Word) : RespondsAlike (execAnd wa wb a b) := by
  unfold execAnd
  cases readOperands wa wb a b with
  | none => exact .raise ..
  | some v => exact .respond ..

theorem respondsAlike_eq (wa wb : BitVec 16) (a b : List Word) : RespondsAlike (execEq wa wb a b) := by
  unfold execEq
  cases readOperands wa wb a b with
  | none => exact .raise ..
  | some v => exact .respond ..

theorem respondsAlike_lsb (w : BitVec 16) (a : List Word) : RespondsAlike (execLsb w a) := by
  unfold execLsb
  cases readOperand w a with
  | none => exact .raise ..
  | some v =>
    dsimp only
    cases lowestSetBit v with
    | none => exact .raise ..
    | some i => exact .respond ..

theorem respondsAlike_narrow (w m : BitVec 16) (a : List Word) : RespondsAlike (execNarrow w m a) := by
  unfold execNarrow
  cases readOperand w a with
  | none => exact .raise ..
  | some v => exact .ite (.respond ..) (.raise ..)

theorem respondsAlike_widen (w m : BitVec 16) (a : List Word) : RespondsAlike (execWiden w m a) := by
  unfold execWiden
  cases readOperand w a with
  | none => exact .raise ..
  | some v => exact .ite (.respond ..) (.raise ..)

theorem respondsAlike_buildpoly (n l : BitVec 16) (ds : List Word) : RespondsAlike (execBuildpoly n l ds) :=
  .ite (.ite (.respond ..) (.raise ..)) (.raise ..)

theorem respondsAlike_lfstep (n : BitVec 16) (v p : List Word) : RespondsAlike (execLfstep n v p) := by
  unfold execLfstep
  refine .ite ?_ (.raise ..)
  cases readVec n.toNat v with
  | none => exact .raise ..
  | some vv =>
    cases readVec n.toNat p with
    | none => exact .raise ..
    | some vp => exact .ite (.respond ..) (.raise ..)

theorem respondsAlike_orbit (n : BitVec 16) (p : List Word) (budget : Word) : RespondsAlike (execOrbit n p budget) := by
  unfold execOrbit
  cases readOperand n p with
  | none => exact .raise ..
  | some vp => exact .ite (.raise ..) (.ite (.respond ..) (.raise ..))

/-- The ten commands of R33 answer alike in every state. -/
theorem respondsAlike_of_isPure {i : Instr} (h : isPure i = true) : RespondsAlike (exec i) := by
  cases i with
  | shr w k a => exact respondsAlike_shr w k a
  | xor wa wb a b => exact respondsAlike_xor wa wb a b
  | and wa wb a b => exact respondsAlike_and wa wb a b
  | eq wa wb a b => exact respondsAlike_eq wa wb a b
  | lsb w a => exact respondsAlike_lsb w a
  | narrow w m a => exact respondsAlike_narrow w m a
  | widen w m a => exact respondsAlike_widen w m a
  | buildpoly n l ds => exact respondsAlike_buildpoly n l ds
  | lfstep n v p => exact respondsAlike_lfstep n v p
  | orbit n p budget => exact respondsAlike_orbit n p budget
  | config | update | digest | reset | rdstatus => simp [isPure, Instr.opcode] at h

end Sys2Proof.Machine

/-! SUPPORT. What EQ answers on canonical vectors, and equality word by word (R23). -/

namespace Sys2Proof.Machine

open Sys2Proof.Safety

/-- Answers of one command in one state have one response header. -/
theorem rw_eq_of_answers {i : Instr} {s : State} {st w sc st' w' sc' : Nat} {ws ws' : List Word}
    (h : Answers i s st w sc ws) (h' : Answers i s st' w' sc' ws') : rw st w sc = rw st' w' sc' := by
  have hs : sent s st w sc ws = sent s st' w' sc' ws' := Host.Outcome.next.inj (h.symm.trans h')
  have hp := congrArg State.respPort hs
  rw [sent_respPort, sent_respPort] at hp
  exact (List.cons.inj (List.append_cancel_left hp)).1

/-- EQ of two word lists that carry one vector answers 1 (R105). -/
theorem eq_answers_one {w : BitVec 16} {a b : List Word} {v : BitVec w.toNat} (s : State) (hw : WidthOk w.toNat)
    (ha : Carries a v) (hb : Carries b v) : Answers (.eq w w a b) s 0 0 1 [] := by
  refine answers_of_respond (w := 0) (sc := 1) ?_
  simp [exec, execEq, readOperands_eq_some hw ha hb]

/-- EQ of two different vectors of one legal width answers 0 (R105). -/
theorem eq_answers_zero {w : BitVec 16} {a b : List Word} {va vb : BitVec w.toNat} (s : State) (hw : WidthOk w.toNat)
    (ha : Carries a va) (hb : Carries b vb) (hne : va ≠ vb) : Answers (.eq w w a b) s 0 0 0 [] := by
  refine answers_of_respond (w := 0) (sc := 0) ?_
  simp [exec, execEq, readOperands_eq_some hw ha hb, hne]

/-- Lists of `n` words are equal exactly when every word is. -/
theorem words_eq_iff_getElem? {n : Nat} {a b : List Word} (ha : a.length = n) (hb : b.length = n) :
    a = b ↔ ∀ j < n, a[j]? = b[j]? := by
  constructor
  · rintro rfl _ _; rfl
  · intro h
    exact List.ext_getElem?' fun j hj => h j (by omega)

end Sys2Proof.Machine

/-! SUPPORT. UPDATE and DIGEST in a configured engine, and what a zero register makes of them (R145, R146). -/

namespace Sys2Proof.Machine

open Sys2Proof.Safety

/-- Writing back REG's own value changes nothing. -/
theorem State.setReg_self {s : State} {e : Engine} (he : s.engine = some e) : s.setReg e e.reg = s := by
  rw [State.setReg, ← he]

/-- UPDATE of at most 8 bits answers by what its bits leave (R144, R145). -/
theorem execUpdate_of_feedBits {cnt : BitVec 4} {data : BitVec 8} {s : State} {e : Engine} {f : Fed (e.d.toNat + 2)}
    (he : s.engine = some e) (hcnt : cnt.toNat ≤ 8)
    (hf : feedBits e.poly0 e.poly1 e.reg (inputBits cnt.toNat data) = f) :
    execUpdate cnt data s =
      if f.zeroScan then raise .eZeroScan (BitVec.ofNat 32 f.consumed) ((s.setReg e f.reg).setZf true)
      else respond .ok 0 (BitVec.ofNat 32 f.consumed) [] (s.setReg e f.reg) := by
  simp only [execUpdate, he, Nat.not_lt.mpr hcnt, if_false, hf]

/-- UPDATE of no bit succeeds and writes nothing, whatever REG is. -/
theorem update_noBits_answers {s : State} {e : Engine} (data : BitVec 8) (he : s.engine = some e) :
    Answers (.update 0 data) s 0 0 0 [] := by
  have hexec : exec (.update 0 data) s = respond .ok 0 0 [] (s.setReg e e.reg) :=
    execUpdate_of_feedBits (f := ⟨e.reg, 0, false⟩) he (by decide) rfl
  rw [State.setReg_self he] at hexec
  exact answers_of_respond (w := 0) (sc := 0) hexec

/-- UPDATE of more than 8 bits is E_RANGE (R144). -/
theorem update_range_answers {cnt : BitVec 4} {s : State} {e : Engine} (data : BitVec 8) (he : s.engine = some e)
    (hcnt : 8 < cnt.toNat) : Answers (.update cnt data) s 5 0 0 [] := by
  refine answers_of_raise .eRange ?_
  simp [exec, execUpdate, he, hcnt]

/-- While REG is 0, UPDATE fails at its first bit: ZF is set and REG stays 0 (R145). -/
theorem update_zeroReg {cnt : BitVec 4} {s : State} {e : Engine} (data : BitVec 8) (he : s.engine = some e)
    (hreg : e.reg = 0) (hpos : 1 ≤ cnt.toNat) (hcnt : cnt.toNat ≤ 8) :
    exec (.update cnt data) s = .next (sent { s with zf := true } 1 0 0 []) := by
  obtain ⟨b, bs, hbits⟩ : ∃ b bs, inputBits cnt.toNat data = b :: bs :=
    List.exists_cons_of_length_pos (by rw [inputBits_length]; exact hpos)
  have hfed : feedBits e.poly0 e.poly1 e.reg (inputBits cnt.toNat data) = ⟨e.reg, 0, true⟩ := by
    rw [hbits, hreg]
    exact feedBits_zero (.nil 0) b bs
  have hexec : exec (.update cnt data) s = raise .eZeroScan 0 ((s.setReg e e.reg).setZf true) :=
    execUpdate_of_feedBits he hcnt hfed
  rw [hexec, State.setReg_self he, raise_eq]
  rfl

/-- While REG is 0, no UPDATE changes the engine: it stops before its first bit, has none, or is E_RANGE. -/
theorem update_zeroReg_engine {cnt : BitVec 4} {data : BitVec 8} {s t : State} {e : Engine} (he : s.engine = some e)
    (hreg : e.reg = 0) (h : exec (.update cnt data) s = .next t) : t.engine = s.engine := by
  have ofOutcome : ∀ {u : State}, exec (.update cnt data) s = .next u → u.engine = s.engine → t.engine = s.engine :=
    fun hu hue => Host.Outcome.next.inj (h.symm.trans hu) ▸ hue
  by_cases hzero : cnt = 0
  · subst hzero
    exact ofOutcome (update_noBits_answers data he) rfl
  have hpos : 1 ≤ cnt.toNat := Nat.pos_of_ne_zero fun h0 => hzero (BitVec.eq_of_toNat_eq h0)
  by_cases hcnt : cnt.toNat ≤ 8
  · exact ofOutcome (update_zeroReg data he hreg hpos hcnt) rfl
  · exact ofOutcome (update_range_answers data he (Nat.lt_of_not_le hcnt)) rfl

/-- DIGEST answers the words of REG's low D bits (R146). -/
theorem digest_answers {s : State} {e : Engine} (he : s.engine = some e) :
    Answers .digest s 0 e.d.toNat 0 (vecWords (e.reg.setWidth e.d.toNat)) := by
  refine answers_of_respond (w := e.d) (sc := 0) ?_
  simp only [exec, execDigest, he]

/-- Registers that agree on the low `d` bits have one digest. -/
theorem setWidth_eq_of_lowBits {n d : Nat} {x y : BitVec n} (h : ∀ i < d, x.getLsbD i = y.getLsbD i) :
    x.setWidth d = y.setWidth d := by
  apply BitVec.eq_of_getLsbD_eq
  intro i hi
  simp [hi, h i hi]

end Sys2Proof.Machine

/-! SUPPORT. What the effects of a command do to the Parameters and to ZF (R26, R30, R31). -/

namespace Sys2Proof.Safety

open Sys2Proof.Machine

/-- A command that is no CONFIG changes nothing of the engine but REG. -/
theorem effect_keeps_parameters {i : Instr} {s t : State} {st : Nat} (h : Effect i s t st) (hi : isConfig i = false) :
    t.engine = s.engine ∨ ∃ e r, s.engine = some e ∧ t.engine = some { e with reg := r } := by
  rcases h with ⟨he, -⟩ | ⟨hc, -⟩ | ⟨-, -, e, r, he, ht, -⟩ | ⟨-, -, e, he, ht, -⟩ | ⟨-, -, e, he, ht, -⟩
  · exact .inl he
  · simp [hi] at hc
  all_goals exact .inr ⟨e, _, he, ht⟩

/-- What a command did when it answered `t`: `exec_cases`, read at the answer. -/
theorem effect_of_exec {i : Instr} {s t : State} (h : exec i s = .next t) :
    ∃ (st w sc : Nat) (ws : List Word), t.respPort = s.respPort ++ rw st w sc :: ws ∧ ResponseShape i st w sc ws ∧
      Effect i s t st := by
  obtain ⟨t', st, w, sc, ws, ht', -, hresp, hshape, heff⟩ := exec_cases i s
  obtain rfl : t' = t := Host.Outcome.next.inj (ht'.symm.trans h)
  exact ⟨st, w, sc, ws, hresp, hshape, heff⟩

/-- A command that is no CONFIG, RESET or UPDATE leaves the engine as it was. -/
theorem effect_keeps_engine {i : Instr} {s t : State} {st : Nat} (h : Effect i s t st) (hc : isConfig i = false)
    (hu : isUpdate i = false) (hr : i ≠ .reset) : t.engine = s.engine := by
  rcases h with ⟨he, -⟩ | ⟨hi, -⟩ | ⟨hi, -⟩ | ⟨hi, -⟩ | ⟨hi, -⟩
  · exact he
  · simp [hc] at hi
  · simp [hu] at hi
  · simp [hu] at hi
  · exact absurd hi hr

/-- An effect that changes ZF is UPDATE's zero scan, which sets it, or a successful CONFIG, which clears it. -/
theorem effect_changes_zf {i : Instr} {s t : State} {st : Nat} (h : Effect i s t st) (hz : t.zf ≠ s.zf) :
    (t.zf = true ∧ isUpdate i = true ∧ st = 1) ∨ (t.zf = false ∧ isConfig i = true ∧ st = 0) := by
  rcases h with ⟨-, h⟩ | ⟨hi, hst, _, -, -, h⟩ | ⟨-, -, _, _, -, -, h⟩ | ⟨hi, hst, _, -, -, h⟩ | ⟨-, -, _, -, -, h⟩
  · exact absurd h hz
  · exact .inr ⟨h, hi, hst⟩
  · exact absurd h hz
  · exact .inl ⟨h, hi, hst⟩
  · exact absurd h hz

/-- CONFIG either answers an error, the engine unchanged, or installs the engine of its own operands (R142). -/
theorem config_engine {s t : State} {d : BitVec 16} {a b c : List Word} (h : exec (.config d a b c) s = .next t) :
    t.engine = s.engine ∨
    ∃ init p0 p1 : BitVec (d.toNat + 2), readVec (d.toNat + 2) a = some init ∧
      readVec (d.toNat + 2) b = some p0 ∧ readVec (d.toNat + 2) c = some p1 ∧
      t.engine = some { d := d, init := init, poly0 := p0, poly1 := p1, reg := init } := by
  have ofRaise : ∀ {e : Status}, raise e 0 s = .next t → t.engine = s.engine := by
    intro e h
    obtain rfl := Host.Outcome.next.inj h
    rfl
  simp only [exec, execConfig] at h
  split at h
  · split at h
    · next init p0 p1 ha hb hc =>
      split at h
      · obtain rfl := Host.Outcome.next.inj h
        exact .inr ⟨init, p0, p1, ha, hb, hc, rfl⟩
      · exact .inl (ofRaise h)
    · exact .inl (ofRaise h)
  · exact .inl (ofRaise h)

end Sys2Proof.Safety

namespace Sys2Proof.Proofs

open Sys2Proof.Machine Sys2Proof.Safety

/-- Settles O9: `step` is `exec` of what the decoder reads, and the decoder reads back what was encoded. -/
theorem stepRunsTheDecodedCommand : Obligations.StepRunsTheDecodedCommand := by
  refine ⟨fun s i rest => step_command, fun s i rest hwf hport => step_command ?_⟩
  rw [hport, Laws.decode_encode_append rest hwf]

/-- Settles O42: the power-on state is a literal, and STATUS is read from it. -/
theorem powerOnStateIsTheSpecs : Obligations.PowerOnStateIsTheSpecs :=
  ⟨rfl, rfl, rfl, rfl, by decide, rfl, fun _ => rfl⟩

/-- Settles O13: EQ's one answer tells whether the numbers are equal, the words are equal exactly when the numbers are, and
lists of one length are equal exactly when every word is. -/
theorem equalityIsWordWise : Obligations.EqualityIsWordWise := by
  intro w a b va vb s hw ha hb
  have hwords : (∀ j < nw w.toNat, a[j]? = b[j]?) ↔ va = vb :=
    (words_eq_iff_getElem? ha.1 hb.1).symm.trans (carries_words_eq_iff ha hb)
  have hdiffer : (∃ j < nw w.toNat, a[j]? ≠ b[j]?) ↔ va ≠ vb := by
    rw [Ne, ← hwords]; push Not; rfl
  have hone : rw 0 0 1 ≠ rw 0 0 0 := by decide
  rw [hwords, hdiffer]
  by_cases heq : va = vb
  · have hans := eq_answers_one s hw ha (heq ▸ hb)
    exact ⟨⟨fun _ => heq, fun _ => hans⟩, ⟨fun h => absurd (rw_eq_of_answers hans h) hone, fun h => absurd heq h⟩,
      .inl hans, carries_words_eq_iff ha hb⟩
  · have hans := eq_answers_zero s hw ha hb heq
    exact ⟨⟨fun h => absurd (rw_eq_of_answers h hans) hone, fun h => absurd h heq⟩, ⟨fun _ => heq, fun _ => hans⟩,
      .inr hans, carries_words_eq_iff ha hb⟩

/-- Settles O48: each of the ten commands responds alike in every state. -/
theorem pureCommandsIgnoreTheState : Obligations.PureCommandsIgnoreTheState := by
  intro i hi
  obtain ⟨r, hr⟩ := respondsAlike_of_isPure hi
  exact ⟨_, _, _, _, fun s => (hr s).trans (congrArg _ (send_eq_sent r s))⟩

/-- Settles O47: of the effects of a command, only UPDATE's zero scan and CONFIG's success change ZF. -/
theorem zfChangesOnlyByUpdateAndConfig : Obligations.ZfChangesOnlyByUpdateAndConfig := by
  intro s t i hexec hz
  obtain ⟨st, w, sc, ws, hresp, ⟨hst, hw, hsc, -⟩, heff⟩ := effect_of_exec hexec
  have hnew := newestStatus_of hresp hst hw hsc
  rcases effect_changes_zf heff hz with ⟨hzf, hi, rfl⟩ | ⟨hzf, hi, rfl⟩
  · exact .inl ⟨hzf, hi, hnew⟩
  · exact .inr ⟨hzf, hi, hnew⟩

/-- Settles O46: no effect but CONFIG's touches the Parameters, and CONFIG takes all of them from its own operands. -/
theorem parametersChangeOnlyByConfig : Obligations.ParametersChangeOnlyByConfig := by
  refine ⟨fun s t i hexec hi => ?_, fun s t d a b c => config_engine⟩
  obtain ⟨_, _, _, _, -, -, heff⟩ := effect_of_exec hexec
  rcases effect_keeps_parameters heff hi with hkept | ⟨e, r, he, ht⟩
  · exact ⟨hkept.trans, fun e he => ⟨e.reg, hkept.trans he⟩⟩
  · refine ⟨fun hnone => by simp [he] at hnone, fun e' he' => ?_⟩
    obtain rfl : e = e' := Option.some.inj (he.symm.trans he')
    exact ⟨r, ht⟩

/-- Settles O27: a zero register stops the stream at its first bit, and only RESET and CONFIG write another register. -/
theorem zeroRegisterFailsEveryUpdate : Obligations.ZeroRegisterFailsEveryUpdate := by
  intro s e he hreg
  refine ⟨fun cnt data => update_zeroReg data he hreg, fun data => update_noBits_answers data he,
    ⟨_, digest_answers he, ?_⟩, fun i t hexec hr hc => ?_⟩
  · rw [hreg, show BitVec.setWidth e.d.toNat (0 : BitVec (e.d.toNat + 2)) = 0 from BitVec.setWidth_zero ..]
    exact carries_vecWords _
  · cases hu : isUpdate i with
    | false =>
      obtain ⟨_, _, _, _, -, -, heff⟩ := effect_of_exec hexec
      exact effect_keeps_engine heff hc hu hr
    | true =>
      cases i with
      | update cnt data => exact update_zeroReg_engine he hreg hexec
      | _ => simp [isUpdate] at hu

/-- The smallest engine, D = 1, with this register; both polynomials are 1. -/
def oneBitEngine (r : BitVec 3) : Engine := { d := 1, init := 1, poly0 := 1, poly1 := 1, reg := r }

/-- A unit with the smallest engine, its ports empty. -/
def oneBitState (r : BitVec 3) : State := { State.reset with engine := some (oneBitEngine r) }

theorem oneBitState_legal (r : BitVec 3) : stateLegal (oneBitState r) = true := by
  have hmax : 3 ≤ nmax := by have := nmax_ge; omega
  simpa [stateLegal, oneBitState, engineLegal, oneBitEngine] using hmax

/-- Settles O50: DIGEST reads the low D bits only. Registers 001 and 011 have the digest 1; after one input bit they are 001
and 000, with digests 1 and 0. -/
theorem headroomBitsAreHidden : Obligations.HeadroomBitsAreHidden := by
  constructor
  · intro s e r he hlow
    refine ⟨_, digest_answers he, ?_⟩
    rw [← setWidth_eq_of_lowBits hlow]
    exact digest_answers (e := { e with reg := r }) rfl
  · exact ⟨oneBitState 1, oneBitEngine 1, (3 : BitVec 3), _, _, _, _, oneBitState_legal 1, rfl, by decide, rfl, rfl,
      digest_answers (e := oneBitEngine 1) rfl, digest_answers (e := oneBitEngine 0) rfl, by decide⟩

end Sys2Proof.Proofs

/-! SUPPORT. Running a command twice (R45): the commands whose second run only sends the first run's response again. -/

namespace Sys2Proof.Machine

open Sys2Proof.Safety

/-- The first run leaves `t` and sends `r`; a second run sends `r` again and changes nothing else. -/
def Repeats (f : State → Result) (s : State) : Prop :=
  ∃ (t : State) (r : Response), t.respPort = s.respPort ∧ f s = .next (t.send r) ∧
    f (t.send r) = .next ((t.send r).send r)

/-- A meaning repeats when, in all states with this engine, it does what a meaning that ignores the state does. -/
theorem RespondsAlike.repeats_of_agrees {f g : State → Result} {s : State} (hg : RespondsAlike g)
    (h : ∀ t, t.engine = s.engine → f t = g t) : Repeats f s := by
  obtain ⟨r, hr⟩ := hg
  exact ⟨s, r, rfl, (h s rfl).trans (hr s), (h (s.send r) rfl).trans (hr (s.send r))⟩

theorem RespondsAlike.repeats {f : State → Result} (h : RespondsAlike f) (s : State) : Repeats f s :=
  h.repeats_of_agrees fun _ _ => rfl

/-- CONFIG does not read the state, and installing the same engine again changes nothing. -/
theorem repeats_config (d : BitVec 16) (init p0 p1 : List Word) (s : State) : Repeats (execConfig d init p0 p1) s := by
  unfold execConfig
  split
  · split
    · next vi v0 v1 _ _ _ =>
      split
      · exact ⟨s.configure { d := d, init := vi, poly0 := v0, poly1 := v1, reg := vi }, _, rfl, rfl, rfl⟩
      · exact (RespondsAlike.raise ..).repeats s
    · exact (RespondsAlike.raise ..).repeats s
  · exact (RespondsAlike.raise ..).repeats s

/-- DIGEST reads the engine, which no response changes. -/
theorem repeats_digest (s : State) : Repeats execDigest s := by
  cases he : s.engine with
  | none => exact (RespondsAlike.raise .eNoCfg 0).repeats_of_agrees fun t ht => by simp only [execDigest, ht, he]
  | some e =>
    exact (RespondsAlike.respond .ok e.d 0 (vecWords (e.reg.setWidth e.d.toNat))).repeats_of_agrees fun t ht => by
      simp only [execDigest, ht, he]

/-- RESET loads INIT, which it does not change. -/
theorem repeats_reset (s : State) : Repeats execReset s := by
  cases he : s.engine with
  | none => exact (RespondsAlike.raise .eNoCfg 0).repeats_of_agrees fun t ht => by simp only [execReset, ht, he]
  | some e => exact ⟨s.setReg e e.init, _, rfl, by simp only [execReset, he]; rfl, rfl⟩

/-- RDSTATUS reads STATUS, which no response changes. -/
theorem repeats_rdstatus (s : State) : Repeats execRdstatus s := ⟨s, _, rfl, rfl, rfl⟩

/-- Every command but UPDATE repeats (R45). -/
theorem repeats_of_not_isUpdate {i : Instr} (hu : isUpdate i = false) (s : State) : Repeats (exec i) s := by
  cases hp : isPure i with
  | true => exact (respondsAlike_of_isPure hp).repeats s
  | false =>
    cases i with
    | config d init p0 p1 => exact repeats_config d init p0 p1 s
    | digest => exact repeats_digest s
    | reset => exact repeats_reset s
    | rdstatus => exact repeats_rdstatus s
    | update cnt data => simp [isUpdate] at hu
    | _ => simp [isPure, Instr.opcode] at hp

/-- The words sent since `s` are the one response sent since. -/
theorem newWords_send {s t : State} (r : Response) (h : t.respPort = s.respPort) : newWords s (t.send r) = r.toWords := by
  simp [newWords, h]

end Sys2Proof.Machine

namespace Sys2Proof.Proofs

open Sys2Proof.Machine Sys2Proof.Safety

/-- Settles O49: the second run of a command but UPDATE only sends its response again. One input bit takes register 111 to
010 and a second one takes 010 to 001. -/
theorem onlyUpdateIsNotIdempotent : Obligations.OnlyUpdateIsNotIdempotent := by
  constructor
  · intro i s hu
    obtain ⟨t, r, hport, hfirst, hsecond⟩ := repeats_of_not_isUpdate hu s
    exact ⟨t.send r, (t.send r).send r, hfirst, hsecond, rfl, rfl,
      (newWords_send r rfl).trans (newWords_send r hport).symm⟩
  · have hne : some (oneBitEngine 1) ≠ some (oneBitEngine 2) := by decide
    exact ⟨1, 0, oneBitState 7, _, _, rfl, rfl, hne⟩

end Sys2Proof.Proofs

/-! SUPPORT. The encoder writes back what the decoder read: the header word, the payload, and their lengths. -/

namespace Sys2Proof.Laws

/-- A legal header is the header word of its own fields (R61, R62). -/
theorem eq_headerWord_of_code {cw : Word} {op : Opcode} (hcode : opField cw = op.code) (hrsv : rsvField cw = 0) :
    cw = headerWord op (waField cw) (xField cw) (cntField cw) (dataField cw) := by
  conv => lhs; rw [word_eq_fields cw, hcode, hrsv]
  rfl

/-- The command cut from a legal header has that header. -/
theorem header_operandsOf {cw : Word} {op : Opcode} (p : List Word) (hcode : opField cw = op.code)
    (hclear : fieldsClear op cw) : (operandsOf op cw p).header = cw := by
  obtain ⟨hrsv, hlow, hx, hwa⟩ := hclear
  conv => rhs; rw [eq_headerWord_of_code hcode hrsv]
  cases op <;> simp_all [operandsOf, Instr.header]

/-- The cut puts back together: the parts of the payload are the payload. -/
theorem payload_operandsOf {cw : Word} {op : Opcode} {p : List Word} (hlen : p.length = payloadLen op cw) :
    (operandsOf op cw p).payload = p := by
  cases op with
  | config =>
    simp only [operandsOf, Instr.payload]
    rw [Nat.two_mul, ← List.drop_drop, List.append_assoc, List.take_append_drop, List.take_append_drop]
  | orbit =>
    have hone : (p.drop (nw (waField cw).toNat)).length = 1 := by simp [hlen, payloadLen]
    obtain ⟨budget, hbudget⟩ := List.length_eq_one_iff.mp hone
    have hparts := List.take_append_drop (nw (waField cw).toNat) p
    rw [hbudget] at hparts
    simpa only [operandsOf, Instr.payload, hbudget, List.headD_cons] using hparts
  | update | digest | reset | rdstatus => exact (List.length_eq_zero_iff.mp hlen).symm
  | shr | lsb | narrow | widen | buildpoly => rfl
  | xor | and | eq | lfstep => exact List.take_append_drop ..

/-- The command cut from a payload of the header's length is well formed. -/
theorem wellFormed_operandsOf {cw : Word} {op : Opcode} {p : List Word} (hlen : p.length = payloadLen op cw) :
    (operandsOf op cw p).wellFormed = true := by
  cases op with
  | update | digest | reset | rdstatus => rfl
  | shr | lsb | narrow | widen | buildpoly => exact beq_iff_eq.mpr hlen
  | xor | and | eq | orbit =>
    simp only [payloadLen] at hlen
    simp [operandsOf, Instr.wellFormed, hlen]
  | config | lfstep =>
    simp only [payloadLen] at hlen
    simp [operandsOf, Instr.wellFormed, hlen]
    omega

/-- What a decoded command says of the words: a legal header with its whole payload, cut by that header (R66, R68). -/
theorem decode_eq_command {ws rest : List Word} {i : Instr} (h : decode ws = .command i rest) :
    ∃ (cw : Word) (tail : List Word) (op : Opcode), ws = cw :: tail ∧ opField cw = op.code ∧
      payloadLen op cw ≤ tail.length ∧ fieldsClear op cw ∧
      i = operandsOf op cw (tail.take (payloadLen op cw)) ∧ rest = tail.drop (payloadLen op cw) := by
  cases ws with
  | nil => simp [decode] at h
  | cons cw tail =>
    rcases decode_cons_cases cw tail with ⟨-, hd⟩ | ⟨op, hcode, ⟨-, hd⟩ | ⟨-, -, hd⟩ | ⟨hlen, hclear, hd⟩⟩
    · exact nomatch hd.symm.trans h
    · exact nomatch hd.symm.trans h
    · exact nomatch hd.symm.trans h
    · obtain ⟨rfl, rfl⟩ := Decoded.command.inj (hd.symm.trans h)
      exact ⟨cw, tail, op, rfl, hcode, hlen, hclear, rfl, rfl⟩

/-- A legal header and its whole payload are the encoding of the command cut from them. -/
theorem encode_operandsOf {cw : Word} {op : Opcode} {p : List Word} (hcode : opField cw = op.code)
    (hclear : fieldsClear op cw) (hlen : p.length = payloadLen op cw) : encode (operandsOf op cw p) = cw :: p := by
  rw [encode, header_operandsOf p hcode hclear, payload_operandsOf hlen]

end Sys2Proof.Laws

namespace Sys2Proof.Proofs

/-- Settles O1: the header's legality, the payload's length and the cut of the payload, put together. -/
theorem decodeOfEncodeIsTheCommand : Obligations.DecodeOfEncodeIsTheCommand :=
  fun _ rest hwf => Laws.decode_encode_append rest hwf

/-- Settles O2: the decoder reads a legal header and its whole payload, and both are written back by the encoder. -/
theorem decodedWordsAreTheEncoding : Obligations.DecodedWordsAreTheEncoding := by
  intro ws rest i h
  obtain ⟨cw, tail, op, rfl, hcode, hlen, hclear, rfl, rfl⟩ := Laws.decode_eq_command h
  have htake : (tail.take (payloadLen op cw)).length = payloadLen op cw := List.length_take_of_le hlen
  refine ⟨Laws.wellFormed_operandsOf htake, ?_⟩
  rw [Laws.encode_operandsOf hcode hclear htake, List.cons_append, List.take_append_drop]

end Sys2Proof.Proofs

/-! SUPPORT. The decode check in the spec's numbers, and what a step does with a header of an unknown or a known OP. -/

namespace Sys2Proof.Machine

open Sys2Proof.Safety

/-- A header with no payload length has an OP value of no row (R65, R68). -/
theorem rowOf_eq_none_of_payloadLenOf {cw : Word} (h : payloadLenOf cw = none) : rowOf cw = none := by
  cases hrow : rowOf cw with
  | none => rfl
  | some r => exact nomatch h.symm.trans (payloadLenOf_of_code (code_of_rowOf hrow).1)

/-- A payload length in the spec's numbers is that of the opcode the header names. -/
theorem exists_code_of_payloadLenOf {cw : Word} {n : Nat} (h : payloadLenOf cw = some n) :
    ∃ op : Opcode, opField cw = op.code ∧ payloadLen op cw = n := by
  cases hrow : rowOf cw with
  | none => exact nomatch h.symm.trans (payloadLenOf_of_unknown hrow)
  | some r =>
    have hcode := (code_of_rowOf hrow).1
    exact ⟨r.op, hcode, Option.some.inj ((payloadLenOf_of_code hcode).symm.trans h)⟩

/-- An OP value outside R65 is in no row of the table. -/
theorem rowOf_eq_none_of_opOf {cw : Word}
    (h : opOf cw ∉ [0x01, 0x02, 0x03, 0x04, 0x05, 0x06, 0x07, 0x10, 0x20, 0x21, 0x22, 0x23, 0x24, 0x30, 0x31]) :
    rowOf cw = none := by
  cases hrow : rowOf cw with
  | none => rfl
  | some r =>
    rw [← opField_toNat, (code_of_rowOf hrow).1] at h
    have hlisted : ∀ op : Opcode, op.code.toNat ∈
        [0x01, 0x02, 0x03, 0x04, 0x05, 0x06, 0x07, 0x10, 0x20, 0x21, 0x22, 0x23, 0x24, 0x30, 0x31] := by
      intro op; cases op <;> decide
    exact absurd (hlisted r.op) h

/-- A header with an unknown OP is consumed alone and answered with E_ILLEGAL (R66, R71). -/
theorem step_unknown {s : State} {cw : Word} {ws : List Word} (hs : s.cmdPort = cw :: ws) (h : rowOf cw = none) :
    step s = .next (sent { s with cmdPort := ws } 7 0 0 []) :=
  step_rejected (.inl (hs ▸ decode_unknown h))

/-- No command touches the words behind it on the port. -/
theorem exec_keeps_cmdPort (i : Instr) (s : State) : ∃ t, exec i s = .next t ∧ t.cmdPort = s.cmdPort := by
  obtain ⟨t, _, _, _, _, ht, hport, -⟩ := exec_cases i s
  exact ⟨t, ht, hport⟩

/-- With its whole payload on the port, a known header and exactly that payload are consumed (R68). -/
theorem step_consumes_payload {s : State} {cw : Word} {ws : List Word} {op : Opcode} (hs : s.cmdPort = cw :: ws)
    (hcode : opField cw = op.code) (hlen : payloadLen op cw ≤ ws.length) :
    ∃ t, step s = .next t ∧ t.cmdPort = ws.drop (payloadLen op cw) := by
  by_cases hclear : fieldsClear op cw
  · rw [step_command (hs ▸ decode_legal hcode hlen hclear)]
    exact exec_keeps_cmdPort _ _
  · exact ⟨_, step_rejected (.inr (hs ▸ decode_reserved hcode hlen hclear)), rfl⟩

/-- A known OP is never read as an unknown one, whether or not its payload has come. -/
theorem decode_ne_unknown {cw : Word} {ws : List Word} {op : Opcode} (hcode : opField cw = op.code) (rest : List Word) :
    decode (cw :: ws) ≠ .unknownOpcode rest := by
  rcases decode_cons_cases cw ws with ⟨hrow, -⟩ | ⟨_, -, ⟨-, hd⟩ | ⟨-, -, hd⟩ | ⟨-, -, hd⟩⟩
  · exact nomatch hrow.symm.trans (rowOf_of_code hcode)
  all_goals exact fun h => nomatch hd.symm.trans h

/-- A field is 0 exactly when its number is. -/
theorem eq_zero_iff_toNat {n : Nat} (v : BitVec n) : v = 0 ↔ v.toNat = 0 :=
  BitVec.toNat_inj.symm

/-- CNT and DATA are both 0 exactly when bits 11:0 are. -/
theorem low12_eq_zero_iff (cw : Word) : cntField cw = 0 ∧ dataField cw = 0 ↔ cw.toNat % 2 ^ 12 = 0 := by
  rw [eq_zero_iff_toNat, eq_zero_iff_toNat, cntField_toNat, dataField_toNat]
  omega

/-- The fields that must be 0, in the spec's numbers (R62, R66). -/
theorem fieldsClear_iff {cw : Word} {op : Opcode} (hcode : opField cw = op.code) :
    fieldsClear op cw ↔ cw.toNat / 2 ^ 12 % 2 ^ 12 = 0 ∧ (opOf cw ≠ 0x21 → cw.toNat % 2 ^ 12 = 0) ∧
      (opOf cw ∈ [0x05, 0x20, 0x21, 0x22, 0x23, 0x24, 0x30, 0x31] → xOf cw = 0) ∧
      (opOf cw ∈ [0x21, 0x22, 0x23, 0x24] → waOf cw = 0) := by
  have hupdate : op ≠ .update ↔ op.code.toNat ≠ 0x21 := by cases op <;> decide
  have hx : op ∈ [.lsb, .config, .update, .digest, .reset, .rdstatus, .lfstep, .orbit] ↔
      op.code.toNat ∈ [0x05, 0x20, 0x21, 0x22, 0x23, 0x24, 0x30, 0x31] := by cases op <;> decide
  have hwa : op ∈ [.update, .digest, .reset, .rdstatus] ↔ op.code.toNat ∈ [0x21, 0x22, 0x23, 0x24] := by
    cases op <;> decide
  rw [fieldsClear, low12_eq_zero_iff, eq_zero_iff_toNat, eq_zero_iff_toNat, eq_zero_iff_toNat, rsvField_toNat,
    xField_toNat, waField_toNat, hupdate, hx, hwa, ← hcode, opField_toNat]

/-- UPDATE reads only the DATA bits below CNT (R144). -/
theorem inputBits_congr {n : Nat} {d d' : Byte} (h : ∀ j < n, d.getLsbD j = d'.getLsbD j) :
    inputBits n d = inputBits n d' :=
  List.map_congr_left fun j hj => h j (List.mem_range.mp hj)

end Sys2Proof.Machine

namespace Sys2Proof.Proofs

open Sys2Proof.Machine Sys2Proof.Safety

/-- Settles O6: the header holds the opcode's code, and an OP value that is no opcode's code finds no row. -/
theorem opcodeMapIsTheSpecs : Obligations.OpcodeMapIsTheSpecs := by
  constructor
  · intro i
    rw [← opField_toNat, (Laws.LegalHeader.all i).1]
    cases i <;> rfl
  · exact fun s cw ws hs hop => step_unknown hs (rowOf_eq_none_of_opOf hop)

/-- Settles O7: a known header is run or rejected, and either way it and its whole payload are consumed. -/
theorem knownOpcodeConsumesItsPayload : Obligations.KnownOpcodeConsumesItsPayload := by
  intro s cw ws n hs hn hlen
  obtain ⟨op, hcode, rfl⟩ := exists_code_of_payloadLenOf hn
  exact step_consumes_payload hs hcode hlen

/-- Settles O8: the three outcomes of the decode check, told apart by the opcode's row and `fieldsClear`. -/
theorem decodeCheckComesFirst : Obligations.DecodeCheckComesFirst := by
  refine ⟨fun s cw ws hs hn => step_unknown hs (rowOf_eq_none_of_payloadLenOf hn), ?_, ?_, ?_⟩
  · intro s cw ws n hs hn hlen hset
    obtain ⟨op, hcode, rfl⟩ := exists_code_of_payloadLenOf hn
    refine step_rejected (.inr (hs ▸ decode_reserved hcode hlen fun hclear => ?_))
    obtain ⟨hrsv, hlow, hx, hwa⟩ := (fieldsClear_iff hcode).mp hclear
    rcases hset with h | ⟨hop, h⟩ | ⟨hop, h⟩ | ⟨hop, h⟩
    · exact h hrsv
    · exact h (hlow hop)
    · exact h (hx hop)
    · exact h (hwa hop)
  · intro s cw ws n hs hn hlen hrsv hlow hx hwa
    obtain ⟨op, hcode, rfl⟩ := exists_code_of_payloadLenOf hn
    have hclear : fieldsClear op cw := (fieldsClear_iff hcode).mpr ⟨hrsv, hlow, hx, hwa⟩
    exact ⟨operandsOf op cw (ws.take (payloadLen op cw)),
      Laws.encode_operandsOf hcode hclear (List.length_take_of_le hlen),
      step_command (hs ▸ decode_legal hcode hlen hclear)⟩
  · intro cnt d d' s hbits
    simp only [exec, execUpdate, inputBits_congr hbits]

/-- Settles O5: the fields are quotients and remainders of the header, and a decoded header is a legal one. -/
theorem headerFieldsArePlaced : Obligations.HeaderFieldsArePlaced := by
  refine ⟨fun cw => ⟨opField_toNat cw, waField_toNat cw, xField_toNat cw, rsvField_toNat cw, cntField_toNat cw,
    dataField_toNat cw⟩, fun cw ws rest i h => ?_⟩
  obtain ⟨cw', _, op, hws, -, -, ⟨hrsv, -⟩, -⟩ := Laws.decode_eq_command h
  obtain ⟨rfl, -⟩ := List.cons.inj hws
  exact hrsv

/-- Settles O10: an empty port and a short payload are what the decoder calls incomplete. -/
theorem unitWaitsForAWholeCommand : Obligations.UnitWaitsForAWholeCommand := by
  constructor
  · exact fun s hs => step_incomplete (hs ▸ rfl)
  · intro s cw ws n hs hn hlen
    obtain ⟨op, hcode, rfl⟩ := exists_code_of_payloadLenOf hn
    exact step_incomplete (hs ▸ decode_short hcode hlen)

/-- Settles O55: the step after E_ILLEGAL decodes the words that follow the rejected header. -/
theorem wordAfterUnknownOpIsAHeader : Obligations.WordAfterUnknownOpIsAHeader := by
  intro s cw ws hs hn
  refine ⟨step_unknown hs (rowOf_eq_none_of_payloadLenOf hn), ?_, ?_⟩
  · rintro i rest hwf rfl
    exact step_command (Laws.decode_encode_append rest hwf)
  · rintro cw' rest rfl hn'
    exact step_unknown rfl (rowOf_eq_none_of_payloadLenOf hn')

/-- Settles O56: only the step on an unknown OP loses the frame; all other steps of a stream are the unit's. -/
theorem unknownOpLeavesTheStreamStuck : Obligations.UnknownOpLeavesTheStreamStuck := by
  refine ⟨?_, streamStep_lost, ?_, ?_⟩
  · exact fun s cw ws hs hn => streamStep_unknown (hs ▸ decode_unknown (rowOf_eq_none_of_payloadLenOf hn))
  · intro s cw ws n hs hn
    obtain ⟨op, hcode, -⟩ := exists_code_of_payloadLenOf hn
    obtain ⟨t, ht⟩ := step_next s
    exact ⟨t, ht, streamStep_inFrame (hs ▸ decode_ne_unknown hcode) ht⟩
  · intro s hs
    have hwait : decode s.cmdPort = .incomplete := hs ▸ rfl
    exact streamStep_inFrame (fun _ h => nomatch hwait.symm.trans h) (step_incomplete hwait)

end Sys2Proof.Proofs

/-! SUPPORT. The places of a response header's fields. -/

namespace Sys2Proof.Machine

open Sys2Proof.Safety

/-- STATUS, RWIDTH, RSV and SCALAR are read back from the places of R69. -/
theorem rw_fields {st w sc : Nat} (hst : st < 2 ^ 8) (hw : w < 2 ^ 16) (hsc : sc < 2 ^ 32) :
    (rw st w sc).toNat / 2 ^ 56 = st ∧ (rw st w sc).toNat / 2 ^ 40 % 2 ^ 16 = w ∧
      (rw st w sc).toNat / 2 ^ 32 % 2 ^ 8 = 0 ∧ (rw st w sc).toNat % 2 ^ 32 = sc := by
  rw [rw_toNat hst hw hsc]
  norm_num at hst hw hsc ⊢
  omega

/-- The one word of a 64-bit vector has the vector's bits. -/
theorem vecWords_64 (v : BitVec 64) : vecWords v = [v] := by
  refine (Carries_eq_vecWords (v := v) ⟨rfl, fun p hp => ?_, fun p hp => bitAt_beyond (ws := [v]) hp⟩).symm
  simp [bitAt_cons, hp]

end Sys2Proof.Machine

namespace Sys2Proof.Proofs

open Sys2Proof.Machine Sys2Proof.Safety

/-- Settles O11: `respond` sends the header as a number, and its fields do not overlap. -/
theorem responseHeaderLayout : Obligations.ResponseHeaderLayout := by
  intro w sc ws s
  exact ⟨respond_eq .ok .., respond_eq .eZeroScan .., respond_eq .eWidth .., respond_eq .eDegree ..,
    respond_eq .ePoly .., respond_eq .eRange .., respond_eq .eNoCfg .., respond_eq .eIllegal .., respond_eq .sBudget ..,
    fun st hst => rw_fields (by omega) w.isLt sc.isLt⟩

/-- Settles O12: the canonical check bit by bit, and the words of a vector. -/
theorem vectorCrossesInWords : Obligations.VectorCrossesInWords := by
  intro w
  refine ⟨fun ws v hlen => ?_, fun ws hlen => ?_, carries_vecWords⟩
  · exact readVec_eq_some_iff.trans ⟨fun h => ⟨hlen, h⟩, fun h => h.2⟩
  · exact readVec_eq_none_iff.trans ⟨fun h => ⟨hlen, h⟩, fun h => h.2⟩

/-- Settles O44: a command completes with one response of R70's shape, a rejected header with the one word of
E_ILLEGAL. -/
theorem eachCommandHasOneResponse : Obligations.EachCommandHasOneResponse := by
  constructor
  · intro s i rest h
    obtain ⟨t, st, w, sc, ws, ht, -, hresp, hshape, -⟩ := exec_cases i (s.setCmdPort rest)
    exact ⟨t, st, w, sc, ws, (step_command h).trans ht, hresp, hshape⟩
  · exact fun s rest h => ⟨_, step_rejected h, rfl⟩

/-- Settles O3: the header words are computed; a 64-bit digest is one word. -/
theorem specHeaderWords : Obligations.SpecHeaderWords := by
  constructor
  · intro a b c
    refine ⟨rfl, rfl, rfl, rfl, rfl, rfl, rfl, rfl, rfl, rfl, rfl, fun hwf => ?_, rfl, rfl, rfl, rfl, rfl, rfl, rfl,
      fun _ => rfl⟩
    rw [← Laws.PayloadFits.all _ hwf]
    simp [Instr.opcode, Instr.header, payloadLen, nw]
  · rintro s ⟨d, init, poly0, poly1, reg⟩ he rfl
    refine ⟨reg.setWidth 64, fun i hi => by simp [hi], ?_⟩
    rw [(digest_answers he : exec .digest s = _)]
    exact congrArg (fun ws => Host.Outcome.next (sent s 0 64 0 ws)) (vecWords_64 (reg.setWidth 64))

/-- Settles O4: the decoder, run on the five word lists. -/
theorem writtenWordsDecode : Obligations.WrittenWordsDecode := by
  unfold Obligations.WrittenWordsDecode
  decide

/-- Settles O54: the line reader, run on the twenty-two lines. -/
theorem sourceLinesAreRead : Obligations.SourceLinesAreRead := by
  unfold Obligations.SourceLinesAreRead
  decide

end Sys2Proof.Proofs

/-! SUPPORT. A rendering read back digit by digit is the number rendered (R86). -/

namespace Sys2Proof.Machine

open Sys2Proof.Safety

/-- One more hexadecimal digit, most significant first; a character that is no digit counts as 0. -/
def pushHexDigit (acc : Nat) (c : Char) : Nat := 16 * acc + (digitValue 16 c).getD 0

theorem digitValue_hexDigit_mod (x : Nat) : digitValue 16 (hexDigit (x % 16)) = some (x % 16) :=
  digitValue_hexDigit ⟨x % 16, Nat.mod_lt x (by decide)⟩

/-- The `n` low hexadecimal digits of a number, most significant first. -/
def hexDigits (x : Nat) : Nat → List Char
  | 0 => []
  | n + 1 => hexDigit (x / 16 ^ n % 16) :: hexDigits x n

theorem renderWord_eq_hexDigits (w : Word) : renderWord w = hexDigits w.toNat 16 := rfl

/-- The `n` low digits of `x` read back as `x` modulo 16^n. -/
theorem foldl_pushHexDigit_hexDigits (x n acc : Nat) :
    (hexDigits x n).foldl pushHexDigit acc = 16 ^ n * acc + x % 16 ^ n := by
  induction n generalizing acc with
  | zero => simp [hexDigits, Nat.mod_one]
  | succ n ih =>
    rw [hexDigits, List.foldl_cons, ih, pushHexDigit, digitValue_hexDigit_mod, Option.getD_some, Nat.mod_pow_succ]
    ring

theorem renderWord_length (w : Word) : (renderWord w).length = 16 := by simp [renderWord]

theorem renderWord_digits (w : Word) : ∀ c ∈ renderWord w, (digitValue 16 c).isSome = true := by
  intro c hc
  obtain ⟨k, -, rfl⟩ := List.mem_map.mp hc
  rw [digitValue_hexDigit_mod, Option.isSome_some]

theorem foldl_pushHexDigit_renderWord (w : Word) (acc : Nat) :
    (renderWord w).foldl pushHexDigit acc = 2 ^ 64 * acc + w.toNat := by
  have hfits : w.toNat % 16 ^ 16 = w.toNat := Nat.mod_eq_of_lt w.isLt
  rw [renderWord_eq_hexDigits, foldl_pushHexDigit_hexDigits, hfits]
  norm_num

theorem renderWords_cons (w : Word) (ws : List Word) : renderWords (w :: ws) = renderWords ws ++ renderWord w := by
  simp [renderWords]

theorem renderWords_length (ws : List Word) : (renderWords ws).length = 16 * ws.length := by
  induction ws with
  | nil => rfl
  | cons w ws ih => rw [renderWords_cons, List.length_append, ih, renderWord_length, List.length_cons]; ring

/-- The words' rendering, read back, is the number they carry. -/
theorem foldl_pushHexDigit_renderWords (ws : List Word) : (renderWords ws).foldl pushHexDigit 0 = wordsToNat ws := by
  induction ws with
  | nil => rfl
  | cons w ws ih =>
    rw [renderWords_cons, List.foldl_append, ih, foldl_pushHexDigit_renderWord, wordsToNat, Nat.add_comm]

theorem renderWords_digits (ws : List Word) : ∀ c ∈ renderWords ws, (digitValue 16 c).isSome = true := by
  intro c hc
  obtain ⟨w, -, hw⟩ := List.mem_flatMap.mp hc
  exact renderWord_digits w c hw

/-- The words of a vector carry its number. -/
theorem wordsToNat_vecWords {w : Nat} (v : BitVec w) : wordsToNat (vecWords v) = v.toNat := by
  apply Nat.eq_of_testBit_eq
  intro p
  rw [testBit_wordsToNat, bitAt_vecWords, BitVec.testBit_toNat]

end Sys2Proof.Machine

namespace Sys2Proof.Proofs

open Sys2Proof.Machine

/-- Settles O52: sixteen digits a word, and the digits read back are the number the words carry. -/
theorem renderingIsBigEndianHex : Obligations.RenderingIsBigEndianHex := by
  intro w v
  refine ⟨?_, ?_, renderWords_digits _⟩
  · rw [render, renderWords_length, vecWords_length]
  · exact (foldl_pushHexDigit_renderWords _).trans (wordsToNat_vecWords v)

end Sys2Proof.Proofs

/-! SUPPORT. The commands that UPDATEBITS expands into, and what running them on an idle unit leaves (R85). -/

namespace Sys2Proof.Machine

open Sys2Proof.Safety

/-- UPDATE 8 for each whole byte of the first `n` bits. -/
def wholeByteUpdates (buf : List Byte) (n : Nat) : List Instr := (buf.take (n / 8)).map (Instr.update 8)

/-- UPDATE of the bits beyond the whole bytes, when there are any. -/
def lastBitsUpdate (buf : List Byte) (n : Nat) : List Instr :=
  if n % 8 = 0 then [] else [.update (BitVec.ofNat 4 (n % 8)) (buf.getD (n / 8) 0)]

theorem updateBitsExpansion_eq_some_iff {buf : List Byte} {n : Nat} {is : List Instr} :
    updateBitsExpansion buf n = some is ↔
      (n + 7) / 8 ≤ buf.length ∧ is = wholeByteUpdates buf n ++ lastBitsUpdate buf n := by
  rw [← Nat.not_lt, updateBitsExpansion, wholeByteUpdates, lastBitsUpdate]
  split <;> simp_all [eq_comm]

theorem updateBitsExpansion_isSome_iff (buf : List Byte) (n : Nat) :
    (updateBitsExpansion buf n).isSome = true ↔ (n + 7) / 8 ≤ buf.length := by
  simp [Option.isSome_iff_exists, updateBitsExpansion_eq_some_iff]

theorem wholeByteUpdates_length {buf : List Byte} {n : Nat} (h : (n + 7) / 8 ≤ buf.length) :
    (wholeByteUpdates buf n).length = n / 8 := by
  rw [wholeByteUpdates, List.length_map, List.length_take_of_le (by omega)]

theorem lastBitsUpdate_length (buf : List Byte) (n : Nat) : (lastBitsUpdate buf n).length = (n + 7) / 8 - n / 8 := by
  unfold lastBitsUpdate
  split
  · next h => simp; omega
  · next h => simp; omega

theorem wholeByteUpdates_getElem? {buf : List Byte} {n j : Nat} (h : (n + 7) / 8 ≤ buf.length) (hj : j < n / 8) :
    (wholeByteUpdates buf n)[j]? = some (.update 8 (buf.getD j 0)) := by
  have hbuf : j < buf.length := by omega
  simp [wholeByteUpdates, hj, hbuf]

/-! ### The bits they supply -/

/-- The input bits an UPDATE brings, the first consumed first; none of any other command. -/
def suppliedBits : Instr → List Bool
  | .update cnt data => inputBits cnt.toNat data
  | _ => []

/-- An UPDATE of at most 8 bits. -/
def ShortUpdate (i : Instr) : Prop := ∃ cnt data, i = .update cnt data ∧ cnt.toNat ≤ 8

/-- The first `8q + r` bits of a buffer are those of `q` bytes and the low `r` bits of the next one. -/
theorem bitsOf_eight_mul_add (buf : List Byte) (q : Nat) {r : Nat} (hr : r ≤ 8) :
    bitsOf buf (8 * q + r) = bitsOf buf (8 * q) ++ inputBits r (buf.getD q 0) := by
  rw [bitsOf, bitsOf, inputBits, List.range_add, List.map_append, List.map_map]
  congr 1
  apply List.map_congr_left
  intro i hi
  have hlt : i < 8 := Nat.lt_of_lt_of_le (List.mem_range.mp hi) hr
  have hdiv : (8 * q + i) / 8 = q := by omega
  have hmod : (8 * q + i) % 8 = i := by omega
  simp only [Function.comp_apply, hdiv, hmod]

theorem flatMap_suppliedBits_bytes (buf : List Byte) {q : Nat} (h : q ≤ buf.length) :
    ((buf.take q).map (Instr.update 8)).flatMap suppliedBits = bitsOf buf (8 * q) := by
  induction q with
  | zero => rfl
  | succ q ih =>
    have hget : buf[q] = buf.getD q 0 := by simp [List.getD_eq_getElem?_getD, Nat.lt_of_succ_le h]
    rw [List.take_succ_eq_append_getElem h, List.map_append, List.flatMap_append, ih (by omega), Nat.mul_succ,
      bitsOf_eight_mul_add buf q (Nat.le_refl 8), hget]
    simp [suppliedBits]

/-- The expansion supplies exactly the first `n` bits of the buffer, each byte lowest bit first. -/
theorem flatMap_suppliedBits_expansion {buf : List Byte} {n : Nat} (h : (n + 7) / 8 ≤ buf.length) :
    (wholeByteUpdates buf n ++ lastBitsUpdate buf n).flatMap suppliedBits = bitsOf buf n := by
  have hbits : bitsOf buf n = bitsOf buf (8 * (n / 8)) ++ inputBits (n % 8) (buf.getD (n / 8) 0) := by
    rw [← bitsOf_eight_mul_add buf _ (by omega), Nat.div_add_mod]
  have hlast : (lastBitsUpdate buf n).flatMap suppliedBits = inputBits (n % 8) (buf.getD (n / 8) 0) := by
    unfold lastBitsUpdate
    split
    · next hzero => rw [hzero]; rfl
    · have hfits : (BitVec.ofNat 4 (n % 8)).toNat = n % 8 := by rw [BitVec.toNat_ofNat]; omega
      rw [List.flatMap_singleton, suppliedBits, hfits]
  rw [List.flatMap_append, wholeByteUpdates, flatMap_suppliedBits_bytes buf (by omega), hlast, hbits]

theorem shortUpdate_of_mem_expansion {buf : List Byte} {n : Nat} {i : Instr}
    (h : i ∈ wholeByteUpdates buf n ++ lastBitsUpdate buf n) : ShortUpdate i := by
  rcases List.mem_append.mp h with h | h
  · obtain ⟨b, -, rfl⟩ := List.mem_map.mp h
    exact ⟨8, b, rfl, by decide⟩
  · unfold lastBitsUpdate at h
    split at h
    · exact nomatch h
    · obtain rfl := List.mem_singleton.mp h
      exact ⟨_, _, rfl, by rw [BitVec.toNat_ofNat]; omega⟩

/-! ### Running them -/

/-- A stream that met a zero register takes no further bit. -/
theorem feedBits_append_of_zeroScan {n : Nat} {p0 p1 r : BitVec n} {as : List Bool}
    (h : (feedBits p0 p1 r as).zeroScan = true) (bs : List Bool) :
    feedBits p0 p1 r (as ++ bs) = feedBits p0 p1 r as := by
  induction as generalizing r with
  | nil => simp [feedBits] at h
  | cons b as ih =>
    simp only [List.cons_append, feedBits] at h ⊢
    cases hs : hstep r (if b then p1 else p0) with
    | none => rfl
    | some r' =>
      simp only [hs] at h
      simp only [ih h]

/-- The newest status is the code of the one response sent. -/
theorem newestStatus_send {s t : State} (r : Response) (h : t.respPort = s.respPort) :
    newestStatus s (t.send r) = some r.status.code := by
  have hsent : (t.send r).respPort = s.respPort ++ rw r.status.code.toNat r.rwidth.toNat r.scalar.toNat :: r.words := by
    rw [State.send_respPort, h, toWords_eq]
  rw [newestStatus_of hsent (status_code_le r.status) r.rwidth.isLt r.scalar.isLt, BitVec.ofNat_toNat,
    BitVec.setWidth_eq]

/-- The first `n` bits of a buffer stop at bit `k` when the first `k` leave a zero register. -/
theorem feedBits_bitsOf_zero {m : Nat} {p0 p1 r : BitVec m} {buf : List Byte} {k n : Nat} (hk : k < n)
    (h : Consumes p0 p1 r (bitsOf buf k) 0) :
    feedBits p0 p1 r (bitsOf buf n) = { reg := 0, consumed := k, zeroScan := true } := by
  have hlt : k < (bitsOf buf n).length := by rwa [bitsOf_length]
  have hsplit : bitsOf buf n = bitsOf buf k ++ (bitsOf buf n)[k] :: (bitsOf buf n).drop (k + 1) := by
    rw [← List.drop_eq_getElem_cons hlt, ← bitsOf_take buf (Nat.le_of_lt hk), List.take_append_drop]
  rw [hsplit, feedBits_zero h, bitsOf_length]

/-- One UPDATE issued on an idle, configured unit: what its bits leave is in REG, ZF records a zero scan, and the status
says whether there was one. -/
theorem issue_update {cnt : BitVec 4} {data : Byte} {s : State} {e : Engine} {f : Fed (e.d.toNat + 2)}
    (he : s.engine = some e) (hs : s.cmdPort = []) (hcnt : cnt.toNat ≤ 8)
    (hf : feedBits e.poly0 e.poly1 e.reg (inputBits cnt.toNat data) = f) :
    ∃ t, issue (.update cnt data) s = .next t ∧ t.engine = some { e with reg := f.reg } ∧
      t.zf = (s.zf || f.zeroScan) ∧ t.cmdPort = [] ∧ (newestStatus s t = some 0 ↔ f.zeroScan = false) := by
  have hexec : issue (.update cnt data) s = execUpdate cnt data s :=
    issue_eq _ hs (by simpa using Laws.decode_encode_append (i := .update cnt data) [] rfl)
  rw [hexec, execUpdate_of_feedBits he hcnt hf]
  cases hz : f.zeroScan with
  | false =>
    refine ⟨_, rfl, rfl, by simp, hs, ?_⟩
    rw [newestStatus_send _ (State.setReg_respPort ..)]
    simp [Status.code]
  | true =>
    refine ⟨_, rfl, rfl, by simp, hs, ?_⟩
    rw [newestStatus_send _ (by simp)]
    simp [Status.code]

/-- The host goes on after an OK response. -/
theorem runExpansion_cons_ok {i : Instr} {is : List Instr} {s t : State} (h : issue i s = .next t)
    (hok : newestStatus s t = some 0) : runExpansion (i :: is) s = runExpansion is t := by
  simp only [runExpansion, h, hok, if_true]

/-- The host stops at a response that is not OK. -/
theorem runExpansion_cons_stop {i : Instr} {is : List Instr} {s t : State} (h : issue i s = .next t)
    (hstop : newestStatus s t ≠ some 0) : runExpansion (i :: is) s = .next t := by
  simp only [runExpansion, h, hstop, if_false]

/-- Short UPDATEs run by the host on an idle, configured unit feed the bits they supply as one stream. -/
theorem runExpansion_feeds {is : List Instr} {s : State} {e : Engine} (hshort : ∀ i ∈ is, ShortUpdate i)
    (he : s.engine = some e) (hs : s.cmdPort = []) :
    ∃ t, runExpansion is s = .next t ∧
      t.engine = some { e with reg := (feedBits e.poly0 e.poly1 e.reg (is.flatMap suppliedBits)).reg } ∧
      t.zf = (s.zf || (feedBits e.poly0 e.poly1 e.reg (is.flatMap suppliedBits)).zeroScan) ∧ t.cmdPort = [] := by
  induction is generalizing s e with
  | nil => exact ⟨s, rfl, he, by simp [feedBits], hs⟩
  | cons i is ih =>
    obtain ⟨cnt, data, rfl, hcnt⟩ := hshort i List.mem_cons_self
    obtain ⟨t, hissue, het, hzf, hport, hstatus⟩ := issue_update he hs hcnt rfl
    rw [List.flatMap_cons, suppliedBits]
    rcases feedBits_cases e.poly0 e.poly1 e.reg (inputBits cnt.toNat data) with ⟨hz, -, hfed⟩ | ⟨hz, -⟩
    · obtain ⟨u, hrun, heu, hzu, hpu⟩ := ih (fun j hj => hshort j (List.mem_cons_of_mem _ hj)) het hport
      rw [runExpansion_cons_ok hissue (hstatus.mpr hz), feedBits_append hfed]
      exact ⟨u, hrun, heu, by rw [hzu, hzf, hz, Bool.or_false], hpu⟩
    · have hstop : newestStatus s t ≠ some 0 := by rw [Ne, hstatus, hz]; decide
      rw [runExpansion_cons_stop hissue hstop, feedBits_append_of_zeroScan hz]
      exact ⟨t, rfl, het, hzf, hport⟩

end Sys2Proof.Machine

namespace Sys2Proof.Proofs

open Sys2Proof.Machine Sys2Proof.Safety

/-- Settles O33: the expansion's UPDATEs supply the buffer's first bits, and the host feeds them as one stream, which
ends or meets a zero register. -/
theorem updateBitsConsumesTheBuffer : Obligations.UpdateBitsConsumesTheBuffer := by
  refine ⟨updateBitsExpansion_isSome_iff, ?_, ⟨rfl, rfl⟩, ?_, ?_, ?_⟩
  · intro buf count
    rw [updateBytesExpansion, Nat.mul_comm]
  · exact fun i is s t h => ⟨runExpansion_cons_stop h, runExpansion_cons_ok h⟩
  · intro buf n is his
    obtain ⟨hbuf, rfl⟩ := updateBitsExpansion_eq_some_iff.mp his
    have hwhole := wholeByteUpdates_length hbuf
    refine ⟨?_, fun j hj => ?_, fun hrem => ?_⟩
    · rw [List.length_append, hwhole, lastBitsUpdate_length]
      omega
    · rw [List.getElem?_append_left (by omega), wholeByteUpdates_getElem? hbuf hj]
    · rw [List.getElem?_append_right (by omega), hwhole, Nat.sub_self, lastBitsUpdate, if_neg hrem]
      rfl
  · intro s e buf n is he hs his
    obtain ⟨hbuf, rfl⟩ := updateBitsExpansion_eq_some_iff.mp his
    obtain ⟨t, hrun, het, hzf, hport⟩ := runExpansion_feeds (fun i => shortUpdate_of_mem_expansion) he hs
    rw [flatMap_suppliedBits_expansion hbuf] at het hzf
    refine ⟨fun r hr => ⟨t, hrun, ?_, ?_, hport⟩, fun k hk hzero => ⟨t, hrun, ?_, ?_, hport⟩⟩
    · rw [het, feedBits_of_consumes hr]
    · rw [hzf, feedBits_of_consumes hr, Bool.or_false]
    · rw [het, feedBits_bitsOf_zero hk hzero]
    · rw [hzf, feedBits_bitsOf_zero hk hzero, Bool.or_true]

end Sys2Proof.Proofs

/-! SUPPORT. What each line form assembles to: its literals, when all of them fit, as fields and payload (R81, R82). -/

namespace Sys2Proof.Machine

open Sys2Proof.Safety

/-- The words that carry a vector are its vector words, and only they. -/
theorem carries_iff {w : Nat} {ws : List Word} {v : BitVec w} : Carries ws v ↔ ws = vecWords v :=
  ⟨Carries_eq_vecWords, fun h => h ▸ carries_vecWords v⟩

@[simp] theorem fieldOf_bind_eq_some_iff {α : Type} {n v : Nat} {f : BitVec n → Option α} {a : α} :
    (fieldOf n v).bind f = some a ↔ v < 2 ^ n ∧ f (BitVec.ofNat n v) = some a := by
  simp [Option.bind_eq_some_iff, fieldOf_eq_some_iff, and_assoc]

@[simp] theorem vectorOf_bind_eq_some_iff {α : Type} {w v : Nat} {f : List Word → Option α} {a : α} :
    (vectorOf w v).bind f = some a ↔ v < 2 ^ w ∧ f (vecWords (BitVec.ofNat w v)) = some a := by
  simp [Option.bind_eq_some_iff, vectorOf_eq_some_iff, and_assoc]

@[simp] theorem mapM_fieldOf_bind_eq_some_iff {α : Type} {n : Nat} {ds : List Nat} {f : List (BitVec n) → Option α}
    {a : α} : (ds.mapM (fieldOf n)).bind f = some a ↔ (∀ d ∈ ds, d < 2 ^ n) ∧ f (ds.map (BitVec.ofNat n)) = some a := by
  simp [Option.bind_eq_some_iff, mapM_fieldOf_eq_some_iff, and_assoc]

/-- A line but `.word` assembles to the encoding of its command. -/
theorem assemble_eq_map_encode {l : AsmLine} (h : ∀ v, l ≠ .word v) : assemble l = l.instr.map encode := by
  cases l with
  | word v => exact absurd rfl (h v)
  | _ => rfl

/-- The vectors of a line's command have the lengths its header says. -/
theorem wellFormed_of_instr {l : AsmLine} {i : Instr} (h : l.instr = some i) : i.wellFormed = true := by
  cases l with
    simp only [AsmLine.instr, Option.bind_eq_bind, Option.pure_def, fieldOf_bind_eq_some_iff, vectorOf_bind_eq_some_iff,
      mapM_fieldOf_bind_eq_some_iff, Option.some.injEq] at h
  | shr | narrow | widen | lfstep | orbit =>
    obtain ⟨hw, -, -, rfl⟩ := h
    simp only [Instr.wellFormed, vecWords_length, BitVec.toNat_ofNat, Nat.mod_eq_of_lt hw, BEq.rfl, Bool.and_self]
  | xor | and | eq =>
    obtain ⟨hwa, hwb, -, -, rfl⟩ := h
    simp only [Instr.wellFormed, vecWords_length, BitVec.toNat_ofNat, Nat.mod_eq_of_lt hwa, Nat.mod_eq_of_lt hwb,
      BEq.rfl, Bool.and_self]
  | lsb =>
    obtain ⟨hw, -, rfl⟩ := h
    simp only [Instr.wellFormed, vecWords_length, BitVec.toNat_ofNat, Nat.mod_eq_of_lt hw, BEq.rfl]
  | buildpoly =>
    obtain ⟨-, hl, -, rfl⟩ := h
    simp only [Instr.wellFormed, List.length_map, BitVec.toNat_ofNat, Nat.mod_eq_of_lt hl, BEq.rfl]
  | config =>
    obtain ⟨hd, -, -, -, rfl⟩ := h
    simp only [Instr.wellFormed, vecWords_length, BitVec.toNat_ofNat, Nat.mod_eq_of_lt hd, BEq.rfl, Bool.and_self]
  | update =>
    obtain ⟨-, -, rfl⟩ := h
    rfl
  | updatebit =>
    obtain ⟨-, rfl⟩ := h
    rfl
  | digest | reset | rdstatus =>
    subst h
    rfl
  | word => exact nomatch h

section Headers

variable {wa x cnt data : Nat} (op : Opcode)

theorem headerWord_widths (hwa : wa < 2 ^ 16) (hx : x < 2 ^ 16) :
    headerWord op (BitVec.ofNat 16 wa) (BitVec.ofNat 16 x) 0#4 0#8 = headerNumber op.code.toNat wa x 0 0 :=
  headerWord_ofNat op hwa hx (by decide) (by decide)

theorem headerWord_width (hwa : wa < 2 ^ 16) :
    headerWord op (BitVec.ofNat 16 wa) 0#16 0#4 0#8 = headerNumber op.code.toNat wa 0 0 0 :=
  headerWord_widths op hwa (by decide)

theorem headerWord_bits (hcnt : cnt < 2 ^ 4) (hdata : data < 2 ^ 8) :
    headerWord op 0#16 0#16 (BitVec.ofNat 4 cnt) (BitVec.ofNat 8 data) = headerNumber op.code.toNat 0 0 cnt data :=
  headerWord_ofNat op (by decide) (by decide) hcnt hdata

end Headers

/-! ### One lemma a line form; commands of one format share theirs

The literals are read one after another, each under its own bound; under the bounds the header word is its numbers. -/

section Lines

variable {op : Opcode} {ws : List Word}

/-- SHR, NARROW and WIDEN: two header fields and a vector whose width is the first. -/
theorem assembled_oneVector_iff {c : BitVec 16 → BitVec 16 → List Word → Instr}
    (hc : ∀ w x a, encode (c w x a) = headerWord op w x 0#4 0#8 :: a) (w x a : Nat) :
    (do return c (← fieldOf 16 w) (← fieldOf 16 x) (← vectorOf w a) : Option Instr).map encode = some ws ↔
      w < 2 ^ 16 ∧ x < 2 ^ 16 ∧ a < 2 ^ w ∧
        ∃ va, Carries va (BitVec.ofNat w a) ∧ ws = headerNumber op.code.toNat w x 0 0 :: va := by
  simp +contextual [hc, headerWord_widths, carries_iff, @eq_comm _ ws]

/-- XOR, AND and EQ: two header fields and a vector of each width. -/
theorem assembled_twoVectors_iff {c : BitVec 16 → BitVec 16 → List Word → List Word → Instr}
    (hc : ∀ wa wb a b, encode (c wa wb a b) = headerWord op wa wb 0#4 0#8 :: (a ++ b)) (wa wb a b : Nat) :
    (do return c (← fieldOf 16 wa) (← fieldOf 16 wb) (← vectorOf wa a) (← vectorOf wb b) : Option Instr).map encode =
        some ws ↔
      wa < 2 ^ 16 ∧ wb < 2 ^ 16 ∧ a < 2 ^ wa ∧ b < 2 ^ wb ∧
        ∃ va vb, Carries va (BitVec.ofNat wa a) ∧ Carries vb (BitVec.ofNat wb b) ∧
          ws = headerNumber op.code.toNat wa wb 0 0 :: (va ++ vb) := by
  simp +contextual [hc, headerWord_widths, carries_iff, @eq_comm _ ws]

theorem assemble_lsb_iff (w a : Nat) : assemble (.lsb w a) = some ws ↔ w < 2 ^ 16 ∧ a < 2 ^ w ∧
    ∃ va, Carries va (BitVec.ofNat w a) ∧ ws = headerNumber 0x05 w 0 0 0 :: va := by
  simp +contextual [assemble, AsmLine.instr, encode, Instr.header, Instr.payload, headerWord_width, Opcode.code,
    carries_iff, @eq_comm _ ws]

theorem assemble_buildpoly_iff (n : Nat) (ds : List Nat) : assemble (.buildpoly n ds) = some ws ↔
    n < 2 ^ 16 ∧ ds.length < 2 ^ 16 ∧ (∀ d ∈ ds, d < 2 ^ 64) ∧
      ws = headerNumber 0x10 n ds.length 0 0 :: ds.map (BitVec.ofNat 64) := by
  simp +contextual [assemble, AsmLine.instr, encode, Instr.header, Instr.payload, headerWord_widths, Opcode.code,
    @eq_comm _ ws]

theorem assemble_config_iff (d i p q : Nat) : assemble (.config d i p q) = some ws ↔
    d < 2 ^ 16 ∧ i < 2 ^ (d + 2) ∧ p < 2 ^ (d + 2) ∧ q < 2 ^ (d + 2) ∧
    ∃ vi vp vq, Carries vi (BitVec.ofNat (d + 2) i) ∧ Carries vp (BitVec.ofNat (d + 2) p) ∧
      Carries vq (BitVec.ofNat (d + 2) q) ∧ ws = headerNumber 0x20 d 0 0 0 :: (vi ++ vp ++ vq) := by
  simp +contextual [assemble, AsmLine.instr, encode, Instr.header, Instr.payload, headerWord_width, Opcode.code,
    carries_iff, @eq_comm _ ws]

theorem assemble_update_iff (cnt data : Nat) : assemble (.update cnt data) = some ws ↔
    cnt < 2 ^ 4 ∧ data < 2 ^ 8 ∧ ws = [headerNumber 0x21 0 0 cnt data] := by
  simp +contextual [assemble, AsmLine.instr, encode, Instr.header, Instr.payload, headerWord_bits, Opcode.code,
    @eq_comm _ ws]

theorem assemble_lfstep_iff (n v p : Nat) : assemble (.lfstep n v p) = some ws ↔ n < 2 ^ 16 ∧ v < 2 ^ n ∧ p < 2 ^ n ∧
    ∃ vv vp, Carries vv (BitVec.ofNat n v) ∧ Carries vp (BitVec.ofNat n p) ∧
      ws = headerNumber 0x30 n 0 0 0 :: (vv ++ vp) := by
  simp +contextual [assemble, AsmLine.instr, encode, Instr.header, Instr.payload, headerWord_width, Opcode.code,
    carries_iff, @eq_comm _ ws]

theorem assemble_orbit_iff (n p b : Nat) : assemble (.orbit n p b) = some ws ↔ n < 2 ^ 16 ∧ p < 2 ^ n ∧ b < 2 ^ 64 ∧
    ∃ vp, Carries vp (BitVec.ofNat n p) ∧ ws = headerNumber 0x31 n 0 0 0 :: (vp ++ [BitVec.ofNat 64 b]) := by
  simp +contextual [assemble, AsmLine.instr, encode, Instr.header, Instr.payload, headerWord_width, Opcode.code,
    carries_iff, @eq_comm _ ws]

/-- UPDATEBIT's bit fills the lowest bit of DATA. -/
theorem assemble_updatebit_iff (b : Nat) : assemble (.updatebit b) = some ws ↔
    b < 2 ∧ ws = [headerNumber 0x21 0 0 1 b] := by
  have hdata : ∀ b < 2, (BitVec.ofNat 1 b).setWidth 8 = BitVec.ofNat 8 b := by decide
  have hencode (hb : b < 2) : encode (.update 1 ((BitVec.ofNat 1 b).setWidth 8)) = [headerNumber 0x21 0 0 1 b] := by
    rw [hdata b hb]
    exact congrArg (fun cw => [cw]) (headerWord_bits .update (cnt := 1) (by decide) (by omega))
  have hline : assemble (.updatebit b) = some ws ↔
      b < 2 ^ 1 ∧ encode (.update 1 ((BitVec.ofNat 1 b).setWidth 8)) = ws := by
    simp only [assemble, AsmLine.instr, Option.bind_eq_bind, Option.pure_def, Option.map_bind, fieldOf_bind_eq_some_iff,
      Function.comp_apply, Option.map_some, Option.some.injEq]
  exact hline.trans (and_congr_right fun hb => by rw [hencode hb, eq_comm])

theorem assemble_word_iff (v : Nat) : assemble (.word v) = some ws ↔ v < 2 ^ 64 ∧ ws = [BitVec.ofNat 64 v] := by
  simp [assemble, fieldOf_eq_some_iff, and_assoc, @eq_comm _ ws]

end Lines

end Sys2Proof.Machine

namespace Sys2Proof.Proofs

open Sys2Proof.Machine Sys2Proof.Safety

/-- Settles O53: each line form by its format's lemma, and a line's command is read back from its words. -/
theorem assemblerNeverTruncates : Obligations.AssemblerNeverTruncates := by
  refine ⟨fun l ws h hword => ?_, fun w k a ws => assembled_oneVector_iff (op := .shr) (fun _ _ _ => rfl) w k a,
    fun wa wb a b ws => assembled_twoVectors_iff (op := .xor) (fun _ _ _ _ => rfl) wa wb a b,
    fun wa wb a b ws => assembled_twoVectors_iff (op := .and) (fun _ _ _ _ => rfl) wa wb a b,
    fun wa wb a b ws => assembled_twoVectors_iff (op := .eq) (fun _ _ _ _ => rfl) wa wb a b,
    fun w a ws => assemble_lsb_iff w a,
    fun w m a ws => assembled_oneVector_iff (op := .narrow) (fun _ _ _ => rfl) w m a,
    fun w m a ws => assembled_oneVector_iff (op := .widen) (fun _ _ _ => rfl) w m a,
    fun n ds ws => assemble_buildpoly_iff n ds, fun d i p q ws => assemble_config_iff d i p q,
    fun cnt data ws => assemble_update_iff cnt data, ⟨rfl, rfl, rfl⟩, fun n v p ws => assemble_lfstep_iff n v p,
    fun n p b ws => assemble_orbit_iff n p b, fun b ws => assemble_updatebit_iff b, fun v ws => assemble_word_iff v,
    fun w v => ⟨fun h => if_neg (Nat.not_lt.mpr h), fun h => ⟨_, if_pos h, carries_vecWords _⟩⟩⟩
  rw [assemble_eq_map_encode hword] at h
  obtain ⟨i, hi, rfl⟩ := Option.map_eq_some_iff.mp h
  have hwf := wellFormed_of_instr hi
  have hdecode := Laws.decode_encode_append [] hwf
  rw [List.append_nil] at hdecode
  exact ⟨i, hi, hwf, hdecode⟩

end Sys2Proof.Proofs

/-! SUPPORT. The checks every datapath command shares: the header bits that must be 0, and the bits beyond the width. -/

namespace Sys2Proof.Machine

open Sys2Proof.Safety

/-- A command of format V1K or V1M checks CW[23:0] and takes the words of one vector (R62, R68). -/
theorem illegalWhen_oneVector {op : Opcode} (hop : op ≠ .update) (hlen : ∀ cw, payloadLen op cw = nw (waField cw).toNat) :
    IllegalWhen op.code.toNat (fun cw => nw (waOf cw)) (fun cw => cw.toNat % 2 ^ 24 ≠ 0) :=
  illegalWhen_of_fields (fun cw => by rw [hlen, waField_toNat]) fun _ hclear hbad => hbad (low24_of_fieldsClear hop hclear)

/-- A command of format V2 checks CW[23:0] and takes the words of two vectors (R62, R68). -/
theorem illegalWhen_twoVectors {op : Opcode} (hop : op ≠ .update)
    (hlen : ∀ cw, payloadLen op cw = nw (waField cw).toNat + nw (xField cw).toNat) :
    IllegalWhen op.code.toNat (fun cw => nw (waOf cw) + nw (xOf cw)) (fun cw => cw.toNat % 2 ^ 24 ≠ 0) :=
  illegalWhen_of_fields (fun cw => by rw [hlen, waField_toNat, xField_toNat])
    fun _ hclear hbad => hbad (low24_of_fieldsClear hop hclear)

/-- Of a legal LSB header, X and the bits below it are 0 (R62). -/
theorem low40_of_fieldsClear_lsb {cw : Word} (h : fieldsClear .lsb cw) : cw.toNat % 2 ^ 40 = 0 := by
  have hlow := low24_of_fieldsClear (by decide) h
  obtain ⟨-, -, hx, -⟩ := h
  have hx := (eq_zero_iff_toNat _).mp (hx (by decide))
  rw [xField_toNat, xOf] at hx
  omega

theorem decide_lt_and_getLsbD {w : Nat} (v : BitVec w) (i : Nat) : (decide (i < w) && v.getLsbD i) = v.getLsbD i := by
  by_cases hi : i < w
  · simp [hi]
  · simp [BitVec.getLsbD_of_ge v i (by omega)]

/-- Answers of one command in one state have the same result words. -/
theorem words_eq_of_answers {i : Instr} {s : State} {st w sc st' w' sc' : Nat} {ws ws' : List Word}
    (h : Answers i s st w sc ws) (h' : Answers i s st' w' sc' ws') : ws = ws' := by
  have hs : sent s st w sc ws = sent s st' w' sc' ws' := Host.Outcome.next.inj (h.symm.trans h')
  have hp := congrArg State.respPort hs
  rw [sent_respPort, sent_respPort] at hp
  exact (List.cons.inj (List.append_cancel_left hp)).2

end Sys2Proof.Machine

/-! SUPPORT. What each datapath command answers, one lemma an outcome (R102 to R108). -/

namespace Sys2Proof.Machine

open Sys2Proof.Safety

section OneOperand

variable {w k : BitVec 16} {a : List Word} {v : BitVec w.toNat} (s : State)

theorem shr_answers (hw : WidthOk w.toNat) (ha : Carries a v) (hk : k.toNat ≤ w.toNat) :
    Answers (.shr w k a) s 0 w.toNat 0 (vecWords (v >>> k.toNat)) := by
  refine answers_of_respond (sc := 0) ?_
  simp only [exec, execShr, readOperand_eq_some hw ha, Nat.not_lt.mpr hk, if_false]

theorem shr_range_answers (hw : WidthOk w.toNat) (ha : Carries a v) (hk : w.toNat < k.toNat) :
    Answers (.shr w k a) s 5 0 0 [] := by
  refine answers_of_raise .eRange ?_
  simp only [exec, execShr, readOperand_eq_some hw ha, hk, if_true]

theorem shr_width_answers (h : ¬WidthOk w.toNat ∨ NonCanonical w.toNat a) : Answers (.shr w k a) s 2 0 0 [] := by
  refine answers_of_raise .eWidth ?_
  simp only [exec, execShr, readOperand_eq_none h]

theorem lsb_answers {i : Nat} (hw : WidthOk w.toNat) (ha : Carries a v) (hi : IsLowestSetBit v i) :
    Answers (.lsb w a) s 0 0 i [] := by
  have hexec : exec (.lsb w a) s = respond .ok 0 (BitVec.ofNat 32 i) [] s := by
    simp only [exec, execLsb, readOperand_eq_some hw ha, lowestSetBit_eq_some_iff.mpr hi]
  have hfits : (BitVec.ofNat 32 i).toNat = i := by
    have hiw := lt_of_isLowestSetBit hi
    have hw16 := w.isLt
    rw [BitVec.toNat_ofNat, Nat.mod_eq_of_lt (by omega)]
  exact hfits ▸ answers_of_respond (w := 0) hexec

theorem lsb_zero_answers (hw : WidthOk w.toNat) (ha : Carries a (0 : BitVec w.toNat)) :
    Answers (.lsb w a) s 1 0 0 [] := by
  refine answers_of_raise .eZeroScan ?_
  simp only [exec, execLsb, readOperand_eq_some hw ha, lowestSetBit_eq_none_iff.mpr rfl]

theorem lsb_width_answers (h : ¬WidthOk w.toNat ∨ NonCanonical w.toNat a) : Answers (.lsb w a) s 2 0 0 [] := by
  refine answers_of_raise .eWidth ?_
  simp only [exec, execLsb, readOperand_eq_none h]

end OneOperand

section TwoOperands

variable {w wa wb : BitVec 16} {a b : List Word} {va vb : BitVec w.toNat} (s : State)

theorem xor_answers (hw : WidthOk w.toNat) (ha : Carries a va) (hb : Carries b vb) :
    Answers (.xor w w a b) s 0 w.toNat 0 (vecWords (va ^^^ vb)) := by
  refine answers_of_respond (sc := 0) ?_
  simp only [exec, execXor, readOperands_eq_some hw ha hb]

theorem and_answers (hw : WidthOk w.toNat) (ha : Carries a va) (hb : Carries b vb) :
    Answers (.and w w a b) s 0 w.toNat 0 (vecWords (va &&& vb)) := by
  refine answers_of_respond (sc := 0) ?_
  simp only [exec, execAnd, readOperands_eq_some hw ha hb]

/-- The checks of R101 come first in each of the three two-operand commands. -/
theorem twoOperands_width_answers
    (h : ¬WidthOk wa.toNat ∨ ¬WidthOk wb.toNat ∨ wa ≠ wb ∨ NonCanonical wa.toNat a ∨ NonCanonical wb.toNat b) :
    Answers (.xor wa wb a b) s 2 0 0 [] ∧ Answers (.and wa wb a b) s 2 0 0 [] ∧ Answers (.eq wa wb a b) s 2 0 0 [] := by
  have hread := readOperands_eq_none h
  refine ⟨answers_of_raise .eWidth ?_, answers_of_raise .eWidth ?_, answers_of_raise .eWidth ?_⟩
  · simp only [exec, execXor, hread]
  · simp only [exec, execAnd, hread]
  · simp only [exec, execEq, hread]

end TwoOperands

/-! ### The width changes: NARROW and WIDEN differ only in the target widths they allow -/

/-- A width change to `m` bits, for the target widths that `allowed` says. -/
def execResize (allowed : Prop) [Decidable allowed] (w m : BitVec 16) (a : List Word) (s : State) : Result :=
  match readOperand w a with
  | none => raise .eWidth 0 s
  | some v => if allowed then respond .ok m 0 (vecWords (v.setWidth m.toNat)) s else raise .eWidth 0 s

theorem exec_narrow_eq_resize (w m : BitVec 16) (a : List Word) (s : State) :
    exec (.narrow w m a) s = execResize (1 ≤ m.toNat ∧ m.toNat < w.toNat) w m a s := rfl

theorem exec_widen_eq_resize (w m : BitVec 16) (a : List Word) (s : State) :
    exec (.widen w m a) s = execResize (w.toNat < m.toNat ∧ m.toNat ≤ nmax) w m a s := rfl

section Resize

variable {allowed : Prop} [Decidable allowed] {i : Instr} {w m : BitVec 16} {a : List Word} {s : State}

theorem resize_answers {v : BitVec w.toNat} (hi : exec i s = execResize allowed w m a s) (hw : WidthOk w.toNat)
    (ha : Carries a v) (hm : allowed) : Answers i s 0 m.toNat 0 (vecWords (v.setWidth m.toNat)) := by
  refine answers_of_respond (sc := 0) (hi.trans ?_)
  simp only [execResize, readOperand_eq_some hw ha, hm, if_true]

theorem resize_width_answers (hi : exec i s = execResize allowed w m a s)
    (h : ¬WidthOk w.toNat ∨ NonCanonical w.toNat a ∨ ¬allowed) : Answers i s 2 0 0 [] := by
  refine answers_of_raise .eWidth (hi.trans ?_)
  rcases or_assoc.mpr h with hbad | hm
  · simp only [execResize, readOperand_eq_none hbad]
  · unfold execResize
    cases readOperand w a with
    | none => rfl
    | some v => exact if_neg hm

end Resize

end Sys2Proof.Machine

namespace Sys2Proof.Proofs

open Sys2Proof.Machine Sys2Proof.Safety

/-- Settles O14: the shifted vector's words are the answer, and its bits are A's bits `K` places higher. -/
theorem shrShiftsRightLogically : Obligations.ShrShiftsRightLogically := by
  refine ⟨fun w k a => congrArg (· :: a) (headerWord_eq .shr w k 0 0), fun w k a v s hw ha hk => ?_,
    fun w k a v s => shr_range_answers s, fun w k a s => shr_width_answers s,
    illegalWhen_oneVector (op := .shr) (by decide) fun _ => rfl⟩
  refine ⟨v >>> k.toNat, _, fun i _ => ?_, carries_vecWords _, shr_answers s hw ha hk⟩
  rw [decide_lt_and_getLsbD, BitVec.getLsbD_ushiftRight, Nat.add_comm]

/-- Settles O15: the answer is the words of the bitwise exclusive or. -/
theorem xorIsBitwise : Obligations.XorIsBitwise :=
  ⟨fun wa wb a b => congrArg (· :: (a ++ b)) (headerWord_eq .xor wa wb 0 0),
    fun _ _ _ _ _ s hw ha hb => ⟨_, _, fun _ _ => BitVec.getLsbD_xor, carries_vecWords _, xor_answers s hw ha hb⟩,
    fun _ _ _ _ s h => (twoOperands_width_answers s h).1,
    illegalWhen_twoVectors (op := .xor) (by decide) fun _ => rfl⟩

/-- Settles O16: the answer is the words of the bitwise and. -/
theorem andIsBitwise : Obligations.AndIsBitwise :=
  ⟨fun wa wb a b => congrArg (· :: (a ++ b)) (headerWord_eq .and wa wb 0 0),
    fun _ _ _ _ _ s hw ha hb => ⟨_, _, fun _ _ => BitVec.getLsbD_and, carries_vecWords _, and_answers s hw ha hb⟩,
    fun _ _ _ _ s h => (twoOperands_width_answers s h).2.1,
    illegalWhen_twoVectors (op := .and) (by decide) fun _ => rfl⟩

/-- Settles O17: vectors are equal exactly when all their bits agree, and EQ answers by their equality. -/
theorem eqComparesVectors : Obligations.EqComparesVectors := by
  refine ⟨fun wa wb a b => congrArg (· :: (a ++ b)) (headerWord_eq .eq wa wb 0 0),
    fun w a b va vb s hw ha hb => ⟨fun hbits => ?_, fun i _ hbit => ?_⟩,
    fun _ _ _ _ s h => (twoOperands_width_answers s h).2.2,
    illegalWhen_twoVectors (op := .eq) (by decide) fun _ => rfl⟩
  · obtain rfl : va = vb := BitVec.eq_of_getLsbD_eq hbits
    exact eq_answers_one s hw ha hb
  · exact eq_answers_zero s hw ha hb fun heq => hbit (congrArg (·.getLsbD i) heq)

/-- Settles O18: a non-zero vector has a lowest set bit, which lies below W and is the answer. -/
theorem lsbFindsTheLowestSetBit : Obligations.LsbFindsTheLowestSetBit := by
  refine ⟨fun w a => congrArg (· :: a) (headerWord_eq .lsb w 0 0 0), fun w a v s hw ha hv => ?_,
    fun w a s => lsb_zero_answers s, fun w a s => lsb_width_answers s,
    illegalWhen_of_fields (op := .lsb) (fun cw => by rw [payloadLen, waField_toNat])
      fun cw hclear hbad => hbad (low40_of_fieldsClear_lsb hclear)⟩
  obtain ⟨i, hi⟩ := exists_lowestSetBit hv
  exact ⟨i, lt_of_isLowestSetBit hi, hi, lsb_answers s hw ha hi⟩

/-- Settles O19: NARROW is the width change to `M` with `1 ≤ M < W`, which keeps the bits below `M`. -/
theorem narrowKeepsTheLowBits : Obligations.NarrowKeepsTheLowBits := by
  refine ⟨fun w m a => congrArg (· :: a) (headerWord_eq .narrow w m 0 0), fun w m a v s hw ha hpos hlt => ?_,
    fun w m a s => resize_width_answers (exec_narrow_eq_resize w m a s),
    illegalWhen_oneVector (op := .narrow) (by decide) fun _ => rfl⟩
  refine ⟨_, _, fun i hi => ?_, carries_vecWords _, resize_answers (exec_narrow_eq_resize w m a s) hw ha ⟨hpos, hlt⟩⟩
  simp [hi]

/-- Settles O20: WIDEN is the width change to `M` with `W < M ≤ NMAX`, which keeps A's bits and sets the others to 0. -/
theorem widenZeroExtends : Obligations.WidenZeroExtends := by
  refine ⟨fun w m a => congrArg (· :: a) (headerWord_eq .widen w m 0 0), fun w m a v s hw ha hlt hmax => ?_,
    fun w m a s => resize_width_answers (exec_widen_eq_resize w m a s),
    illegalWhen_oneVector (op := .widen) (by decide) fun _ => rfl⟩
  refine ⟨_, _, fun i hi => ?_, carries_vecWords _, resize_answers (exec_widen_eq_resize w m a s) hw ha ⟨hlt, hmax⟩⟩
  simp [hi, decide_lt_and_getLsbD]

/-- Settles O21: words that carry a vector are its vector words, so the laws of vectors are laws of the answers; the words
of the first shift are those of `A >> K`, and shifting them is shifting A by the sum. -/
theorem shiftAndXorLaws : Obligations.ShiftAndXorLaws := by
  constructor
  · intro w a z v s hw ha hz
    have hself : z = vecWords (v ^^^ v) := by rw [BitVec.xor_self]; exact Carries_eq_vecWords hz
    have hzero : a = vecWords (v ^^^ 0) := (Carries_eq_vecWords ha).trans (congrArg vecWords BitVec.xor_zero.symm)
    exact ⟨hself ▸ xor_answers s hw ha ha, by simpa only [← hzero] using xor_answers s hw ha hz⟩
  · intro w k l kl a words v s s' hw ha hkl hfirst
    refine ⟨fun hsum => ?_, fun hsum => shr_range_answers s' hw ha (hkl ▸ hsum)⟩
    have hwords : words = vecWords (v >>> k.toNat) := words_eq_of_answers hfirst (shr_answers s hw ha (by omega))
    have hshift : (v >>> k.toNat) >>> l.toNat = v >>> kl.toNat := by rw [hkl, BitVec.shiftRight_add]
    have hsecond := shr_answers s' hw (carries_vecWords (v >>> k.toNat)) (show l.toNat ≤ w.toNat by omega)
    rw [← hwords, hshift] at hsecond
    exact ⟨_, hsecond, shr_answers s' hw ha (by omega)⟩

end Sys2Proof.Proofs

/-! SUPPORT. What BUILDPOLY answers, one lemma an outcome (R131), and the degrees that build a given vector (R134). -/

namespace Sys2Proof.Machine

open Sys2Proof.Safety

/-- A command that answers OK raises no error in the same state. -/
theorem not_answers_error_of_ok {i : Instr} {s : State} {w sc st : Nat} {ws : List Word} (hok : Answers i s 0 w sc ws)
    (hw : w < 2 ^ 16) (hsc : sc < 2 ^ 32) (hpos : 0 < st) (hle : st ≤ 8) : ¬Answers i s st 0 0 [] := by
  intro herr
  have hs : sent s 0 w sc ws = sent s st 0 0 [] := Host.Outcome.next.inj (hok.symm.trans herr)
  have hcode := congrArg (newestStatus s) hs
  rw [newestStatus_of rfl (by decide) hw hsc, newestStatus_of rfl hle (by decide) (by decide)] at hcode
  have hnum := congrArg BitVec.toNat (Option.some.inj hcode)
  rw [BitVec.toNat_ofNat, BitVec.toNat_ofNat] at hnum
  omega

section Buildpoly

variable {n l : BitVec 16} {ds : List Word} {s : State}

theorem buildpoly_answers (hw : WidthOk n.toNat) (hds : ∀ d ∈ ds, d.toNat < n.toNat) :
    Answers (.buildpoly n l ds) s 0 n.toNat 0 (vecWords (buildPoly n.toNat (ds.map BitVec.toNat))) := by
  have hall : (ds.all fun d => decide (d.toNat < n.toNat)) = true := by simpa using hds
  refine answers_of_respond (sc := 0) ?_
  simp only [exec, execBuildpoly, (widthInRange_iff _).mpr hw, hall, if_true]

/-- One degree out of range rejects the whole command (R131). -/
theorem buildpoly_degree_answers (hw : WidthOk n.toNat) (hds : ∃ d ∈ ds, n.toNat ≤ d.toNat) :
    Answers (.buildpoly n l ds) s 3 0 0 [] := by
  have hall : ¬(ds.all fun d => decide (d.toNat < n.toNat)) = true := by simpa using hds
  refine answers_of_raise .eDegree ?_
  simp only [exec, execBuildpoly, (widthInRange_iff _).mpr hw, if_true, if_neg hall]

theorem buildpoly_width_answers (hw : ¬WidthOk n.toNat) : Answers (.buildpoly n l ds) s 2 0 0 [] := by
  refine answers_of_raise .eWidth ?_
  simp only [exec, execBuildpoly, if_neg (mt (widthInRange_iff _).mp hw)]

/-- BUILDPOLY answers OK only for a legal width and degrees below it. -/
theorem valid_of_buildpoly_ok {w sc : Nat} {words : List Word} (h : Answers (.buildpoly n l ds) s 0 w sc words)
    (hw : w < 2 ^ 16) (hsc : sc < 2 ^ 32) : WidthOk n.toNat ∧ ∀ d ∈ ds, d.toNat < n.toNat := by
  have hwidth : WidthOk n.toNat := by
    by_contra hbad
    exact not_answers_error_of_ok h hw hsc (by decide) (by decide) (buildpoly_width_answers hbad)
  refine ⟨hwidth, fun d hd => ?_⟩
  by_contra hbad
  exact not_answers_error_of_ok h hw hsc (by decide) (by decide)
    (buildpoly_degree_answers hwidth ⟨d, hd, Nat.le_of_not_lt hbad⟩)

end Buildpoly

/-- Every output of the builder is a polynomial: bit 0 is set (R132). -/
theorem buildPoly_getLsbD_zero {n : Nat} (ds : List Nat) (hn : 0 < n) : (buildPoly n ds).getLsbD 0 = true :=
  (buildPoly_getLsbD ds hn).mpr (.inl rfl)

/-- The degrees of the set bits of a vector: degree `d` is bit `N − 1 − d` (R130). -/
def degreesOf {n : Nat} (p : BitVec n) : List Nat := (List.range n).filter fun d => p.getLsbD (n - 1 - d)

theorem mem_degreesOf {n : Nat} {p : BitVec n} {d : Nat} : d ∈ degreesOf p ↔ d < n ∧ p.getLsbD (n - 1 - d) = true := by
  simp [degreesOf]

/-- The builder gives a polynomial back from its own degrees (R134). -/
theorem buildPoly_degreesOf {n : Nat} {p : BitVec n} (h0 : p.getLsbD 0 = true) : buildPoly n (degreesOf p) = p := by
  apply BitVec.eq_of_getLsbD_eq
  intro i hi
  rw [Bool.eq_iff_iff, buildPoly_getLsbD _ hi]
  constructor
  · rintro (rfl | ⟨d, hd, rfl⟩)
    · exact h0
    · exact (mem_degreesOf.mp hd).2
  · intro hbit
    have hplace : n - 1 - (n - 1 - i) = i := by omega
    exact .inr ⟨n - 1 - i, mem_degreesOf.mpr ⟨by omega, hplace.symm ▸ hbit⟩, hplace.symm⟩

/-- The degrees of a vector as BUILDPOLY's payload words. -/
def degreeWords {n : Nat} (p : BitVec n) : List Word := (degreesOf p).map (BitVec.ofNat 64)

theorem degreeWords_length_le {n : Nat} (p : BitVec n) : (degreeWords p).length ≤ n := by
  rw [degreeWords, List.length_map, degreesOf]
  exact (List.length_filter_le _ _).trans_eq List.length_range

/-- A degree below a legal width fits its word. -/
theorem map_toNat_degreeWords {n : Nat} (p : BitVec n) (hn : n < 2 ^ 16) :
    (degreeWords p).map BitVec.toNat = degreesOf p := by
  rw [degreeWords, List.map_map]
  refine (List.map_congr_left fun d hd => ?_).trans (List.map_id _)
  have hlt := (mem_degreesOf.mp hd).1
  exact Nat.mod_eq_of_lt (by omega)

theorem toNat_mem_degreesOf {n : Nat} {p : BitVec n} (hn : n < 2 ^ 16) {d : Word} (hd : d ∈ degreeWords p) :
    d.toNat ∈ degreesOf p :=
  map_toNat_degreeWords p hn ▸ List.mem_map_of_mem hd

end Sys2Proof.Machine

namespace Sys2Proof.Proofs

open Sys2Proof.Machine Sys2Proof.Safety

/-- Settles O22: the answer is the words of the built vector, whose bits are those of the degrees and bit 0. -/
theorem buildpolySetsTheDegreeBits : Obligations.BuildpolySetsTheDegreeBits := by
  refine ⟨fun n l ds => congrArg (· :: ds) (headerWord_eq .buildpoly n l 0 0), fun n l ds s hw hds => ?_,
    fun n l ds s => buildpoly_degree_answers, fun n l ds s => buildpoly_width_answers,
    illegalWhen_of_fields (op := .buildpoly) (fun cw => (xField_toNat cw).symm)
      fun _ hclear hbad => hbad (low24_of_fieldsClear (by decide) hclear)⟩
  refine ⟨_, _, fun i hi => ?_, carries_vecWords _, buildpoly_answers hw hds⟩
  rw [buildPoly_getLsbD _ hi]
  simp only [List.mem_map, exists_exists_and_eq_and]

/-- Settles O23: an OK answer is the words of a built vector, and a vector with bit 0 set is built from its own degrees. -/
theorem builderOutputsAreThePolynomials : Obligations.BuilderOutputsAreThePolynomials := by
  refine ⟨fun n l ds s words h => ?_, fun n p words s hw hp h0 => ?_, fun n words s hw hone => ?_⟩
  · obtain ⟨hw, hds⟩ := valid_of_buildpoly_ok h n.isLt (by decide)
    obtain rfl := words_eq_of_answers h (buildpoly_answers hw hds)
    exact ⟨_, carries_vecWords _, buildPoly_getLsbD_zero _ hw.1⟩
  · have hlen : (degreeWords p).length < 2 ^ 16 := (degreeWords_length_le p).trans_lt n.isLt
    have hdeg {d : Word} (hd : d ∈ degreeWords p) := mem_degreesOf.mp (toNat_mem_degreesOf n.isLt hd)
    refine ⟨BitVec.ofNat 16 (degreeWords p).length, degreeWords p, (Nat.mod_eq_of_lt hlen).symm,
      fun d hd => (hdeg hd).2, ?_⟩
    have hwords : words = vecWords (buildPoly n.toNat ((degreeWords p).map BitVec.toNat)) := by
      rw [map_toNat_degreeWords p n.isLt, buildPoly_degreesOf h0, Carries_eq_vecWords hp]
    exact hwords ▸ buildpoly_answers hw fun d hd => (hdeg hd).1
  · rw [Carries_eq_vecWords hone, ← buildPoly_nil]
    exact buildpoly_answers hw (by simp)

end Sys2Proof.Proofs

/-! SUPPORT. The header bits that must be 0 in the formats of the hash engine and the orbit enumerator (R62). -/

namespace Sys2Proof.Machine

open Sys2Proof.Safety

/-- Of a legal header whose format leaves X, RSV, CNT and DATA unused, bits 39:0 are 0. -/
theorem low40_of_fieldsClear {op : Opcode} {cw : Word}
    (hop : op ∈ [.lsb, .config, .digest, .reset, .rdstatus, .lfstep, .orbit]) (h : fieldsClear op cw) :
    cw.toNat % 2 ^ 40 = 0 := by
  have hlow := low24_of_fieldsClear (by rintro rfl; simp at hop) h
  obtain ⟨-, -, hx, -⟩ := h
  have hx := (eq_zero_iff_toNat _).mp (hx (by revert hop; cases op <;> decide))
  rw [xField_toNat, xOf] at hx
  omega

/-- A command with no operand checks CW[55:0] and takes no payload. -/
theorem illegalWhen_noOperand {op : Opcode} (hop : op ∈ [.digest, .reset, .rdstatus]) :
    IllegalWhen op.code.toNat (fun _ => 0) (fun cw => cw.toNat % 2 ^ 56 ≠ 0) := by
  refine illegalWhen_of_fields (fun cw => ?_) fun cw hclear hbad => hbad ?_
  · revert op; simp [payloadLen]
  · have hlow := low40_of_fieldsClear (by revert hop; cases op <;> decide) hclear
    obtain ⟨-, -, -, hwa⟩ := hclear
    have hwa := (eq_zero_iff_toNat _).mp (hwa (List.mem_cons_of_mem _ hop))
    rw [waField_toNat, waOf] at hwa
    omega

/-- Of a legal UPDATE header, WA, X and RSV are 0. -/
theorem mid44_of_fieldsClear_update {cw : Word} (h : fieldsClear .update cw) : cw.toNat / 2 ^ 12 % 2 ^ 44 = 0 := by
  obtain ⟨hrsv, -, hx, hwa⟩ := h
  have hrsv := (eq_zero_iff_toNat _).mp hrsv
  have hx := (eq_zero_iff_toNat _).mp (hx (by decide))
  have hwa := (eq_zero_iff_toNat _).mp (hwa (by decide))
  rw [rsvField_toNat] at hrsv
  rw [xField_toNat, xOf] at hx
  rw [waField_toNat, waOf] at hwa
  omega

end Sys2Proof.Machine

/-! SUPPORT. What each hash engine command answers, one lemma an outcome (R142 to R148). -/

namespace Sys2Proof.Machine

open Sys2Proof.Safety

section Config

variable {d : BitVec 16} {a b c : List Word} {init p0 p1 : BitVec (d.toNat + 2)} (s : State)

/-- CONFIG past its width and canonical checks: the polynomials decide (R142). -/
theorem exec_config_of_carries (hd : 1 ≤ d.toNat ∧ d.toNat + 2 ≤ nmax) (ha : Carries a init) (hb : Carries b p0)
    (hc : Carries c p1) :
    exec (.config d a b c) s =
      if p0.getLsbD 0 && p1.getLsbD 0 then
        respond .ok 0 0 [] (s.configure { d := d, init := init, poly0 := p0, poly1 := p1, reg := init })
      else raise .ePoly 0 s := by
  simp only [exec, execConfig, if_pos hd, readVec_of_carries ha, readVec_of_carries hb, readVec_of_carries hc]

theorem config_width_answers
    (h : ¬(1 ≤ d.toNat ∧ d.toNat + 2 ≤ nmax) ∨ NonCanonical (d.toNat + 2) a ∨ NonCanonical (d.toNat + 2) b ∨
      NonCanonical (d.toNat + 2) c) : Answers (.config d a b c) s 2 0 0 [] := by
  refine answers_of_raise .eWidth ?_
  simp only [exec, execConfig]
  split
  · next hd =>
    split
    · next ha hb hc =>
      rcases h with h | h | h | h
      · exact absurd hd h
      · exact nomatch ha.symm.trans (readVec_of_nonCanonical h)
      · exact nomatch hb.symm.trans (readVec_of_nonCanonical h)
      · exact nomatch hc.symm.trans (readVec_of_nonCanonical h)
    · rfl
  · rfl

end Config

section Engine

variable {s : State} {e : Engine}

/-- UPDATE whose bits can all be consumed writes REG only and reports CNT (R144). -/
theorem update_consumed {cnt : BitVec 4} {data : BitVec 8} {r : BitVec (e.d.toNat + 2)} (he : s.engine = some e)
    (hcnt : cnt.toNat ≤ 8) (h : Consumes e.poly0 e.poly1 e.reg (bitsOf [data] cnt.toNat) r) :
    exec (.update cnt data) s = .next (sent { s with engine := some { e with reg := r } } 0 0 cnt.toNat []) := by
  have hfed := feedBits_of_consumes h
  rw [← inputBits_eq_bitsOf data hcnt, inputBits_length] at hfed
  have hexec : exec (.update cnt data) s = respond .ok 0 (BitVec.ofNat 32 cnt.toNat) [] (s.setReg e r) :=
    execUpdate_of_feedBits he hcnt hfed
  have hfits : (BitVec.ofNat 32 cnt.toNat).toNat = cnt.toNat := Nat.mod_eq_of_lt (by omega)
  rw [hexec, respond_eq, hfits]
  rfl

/-- UPDATE that meets a zero register after `k` bits keeps their effect, sets ZF and reports `k` (R145). -/
theorem update_zeroScan {cnt : BitVec 4} {data : BitVec 8} {k : Nat} (he : s.engine = some e)
    (hcnt : cnt.toNat ≤ 8) (hk : k < cnt.toNat) (h : Consumes e.poly0 e.poly1 e.reg (bitsOf [data] k) 0) :
    exec (.update cnt data) s =
      .next (sent { s with engine := some { e with reg := 0 }, zf := true } 1 0 k []) := by
  have hfed := feedBits_bitsOf_zero hk h
  rw [← inputBits_eq_bitsOf data hcnt] at hfed
  have hexec : exec (.update cnt data) s = raise .eZeroScan (BitVec.ofNat 32 k) ((s.setReg e 0).setZf true) :=
    execUpdate_of_feedBits he hcnt hfed
  have hfits : (BitVec.ofNat 32 k).toNat = k := Nat.mod_eq_of_lt (by omega)
  rw [hexec, raise_eq, hfits]
  rfl

theorem exec_reset_of_engine (he : s.engine = some e) :
    exec .reset s = .next (sent { s with engine := some { e with reg := e.init } } 0 0 0 []) := by
  have hexec : exec .reset s = respond .ok 0 0 [] (s.setReg e e.init) := by simp only [exec, execReset, he]
  rw [hexec, respond_eq]
  rfl

end Engine

section NoEngine

variable {s : State} (hs : s.engine = none)

include hs

theorem update_noCfg_answers (cnt : BitVec 4) (data : BitVec 8) : Answers (.update cnt data) s 6 0 0 [] := by
  refine answers_of_raise .eNoCfg ?_
  simp only [exec, execUpdate, hs]

theorem digest_noCfg_answers : Answers .digest s 6 0 0 [] := by
  refine answers_of_raise .eNoCfg ?_
  simp only [exec, execDigest, hs]

theorem reset_noCfg_answers : Answers .reset s 6 0 0 [] := by
  refine answers_of_raise .eNoCfg ?_
  simp only [exec, execReset, hs]

end NoEngine

/-- STATUS in the spec's numbers: D, ZF and CFG in the places of R30. -/
theorem statusReg_toNat (s : State) :
    s.statusReg.toNat = s.d.toNat * 2 ^ 16 + (if s.zf then 2 else 0) + s.cfg.toNat := by
  have hzf : (if s.zf then 2 else 0) = 2 * s.zf.toNat := by cases s.zf <;> rfl
  rw [State.statusReg, toNat_append_eq, toNat_append_eq, toNat_append_eq, BitVec.toNat_ofBool, BitVec.toNat_ofBool,
    BitVec.toNat_zero, hzf]
  omega

theorem rdstatus_answers (s : State) :
    Answers .rdstatus s 0 0 (s.d.toNat * 2 ^ 16 + (if s.zf then 2 else 0) + s.cfg.toNat) [] :=
  statusReg_toNat s ▸ answers_of_respond (w := 0) rfl

end Sys2Proof.Machine

/-! SUPPORT. The per-bit step, a stream of bits in two parts, and what a run without CONFIG keeps (R143, R149 to R151). -/

namespace Sys2Proof.Machine

open Sys2Proof.Safety

theorem isLowestSetBit_twoPow_top (n : Nat) : IsLowestSetBit (BitVec.twoPow (n + 1) n) n :=
  ⟨by simp, fun j hj => by simp [Nat.ne_of_gt hj]⟩

/-- The step gives 0 exactly when what the shift leaves is the polynomial (R151). -/
theorem hstep_eq_zero_iff {n : Nat} {r p : BitVec n} {i : Nat} (hi : IsLowestSetBit r i) :
    hstep r p = some 0 ↔ r >>> (i + 1) = p := by
  rw [hstep_of_lowest hi, Option.some_inj]
  exact BitVec.xor_eq_zero_iff

/-- No bit moves a zero register. -/
theorem feedBits_zero_reg {n : Nat} (p0 p1 : BitVec n) (bs : List Bool) : (feedBits p0 p1 0 bs).reg = 0 := by
  cases bs with
  | nil => rfl
  | cons b bs => exact congrArg Fed.reg (feedBits_zero (.nil 0) b bs)

/-- A stream in two parts leaves the register of the whole, and meets a zero register when the whole does or the first part
did (R149). -/
theorem feedBits_append_reg_zeroScan {n : Nat} (p0 p1 r : BitVec n) (as bs : List Bool) :
    (feedBits p0 p1 r (as ++ bs)).reg = (feedBits p0 p1 (feedBits p0 p1 r as).reg bs).reg ∧
      (feedBits p0 p1 r (as ++ bs)).zeroScan =
        ((feedBits p0 p1 r as).zeroScan || (feedBits p0 p1 (feedBits p0 p1 r as).reg bs).zeroScan) := by
  rcases feedBits_cases p0 p1 r as with ⟨hz, -, hfed⟩ | ⟨hz, -, hreg, -⟩
  · rw [feedBits_append hfed, hz]
    exact ⟨rfl, rfl⟩
  · rw [feedBits_append_of_zeroScan hz, hreg, feedBits_zero_reg, hz]
    exact ⟨rfl, rfl⟩

/-- An UPDATEBITS expansion run on an idle, configured unit feeds the buffer's bits as one stream (R85). -/
theorem runExpansion_feeds_bitsOf {buf : List Byte} {n : Nat} {is : List Instr} {s : State} {e : Engine}
    (his : updateBitsExpansion buf n = some is) (he : s.engine = some e) (hs : s.cmdPort = []) :
    ∃ t, runExpansion is s = .next t ∧
      t.engine = some { e with reg := (feedBits e.poly0 e.poly1 e.reg (bitsOf buf n)).reg } ∧
      t.zf = (s.zf || (feedBits e.poly0 e.poly1 e.reg (bitsOf buf n)).zeroScan) ∧ t.cmdPort = [] := by
  obtain ⟨hbuf, rfl⟩ := updateBitsExpansion_eq_some_iff.mp his
  rw [← flatMap_suppliedBits_expansion hbuf]
  exact runExpansion_feeds (fun i => shortUpdate_of_mem_expansion) he hs

/-- Commands without a CONFIG run to a state where the engine differs in REG at most (R26). -/
theorem runsTo_keeps_parameters {is : List Instr} {s : State} {e : Engine} (he : s.engine = some e)
    (his : ∀ i ∈ is, isConfig i = false) : ∃ t r, RunsTo is s t ∧ t.engine = some { e with reg := r } := by
  obtain ⟨hkeeps, -⟩ := Proofs.parametersChangeOnlyByConfig
  induction is generalizing s e with
  | nil => exact ⟨s, e.reg, .nil s, he⟩
  | cons i is ih =>
    obtain ⟨t, hexec, -⟩ := exec_keeps_cmdPort i s
    obtain ⟨-, hsome⟩ := hkeeps s t i hexec (his i List.mem_cons_self)
    obtain ⟨r, ht⟩ := hsome e he
    obtain ⟨u, r', hrun, hu⟩ := ih ht fun j hj => his j (List.mem_cons_of_mem _ hj)
    exact ⟨u, r', .cons i is s t u hexec hrun, hu⟩

end Sys2Proof.Machine

namespace Sys2Proof.Proofs

open Sys2Proof.Machine Sys2Proof.Safety

/-- Settles O24: past the width and canonical checks, bit 0 of the two polynomials decides. -/
theorem configBuildsTheEngine : Obligations.ConfigBuildsTheEngine := by
  refine ⟨fun d a b c => congrArg (· :: (a ++ b ++ c)) (headerWord_eq .config d 0 0 0),
    fun d a b c init p0 p1 s hpos hmax ha hb hc h0 h1 => ?_,
    fun d a b c init p0 p1 s hpos hmax ha hb hc hclear => answers_of_raise .ePoly ?_,
    fun d a b c s => config_width_answers s,
    illegalWhen_of_fields (op := .config) (fun cw => by rw [payloadLen, waField_toNat])
      fun cw hclear hbad => hbad (low40_of_fieldsClear (by decide) hclear)⟩
  · rw [exec_config_of_carries s ⟨hpos, hmax⟩ ha hb hc, h0, h1]
    exact respond_eq .ok 0 0 [] _
  · have hpoly : (p0.getLsbD 0 && p1.getLsbD 0) = false := Bool.and_eq_false_iff.mpr hclear
    rw [exec_config_of_carries s ⟨hpos, hmax⟩ ha hb hc, hpoly]
    rfl

/-- Settles O25: the step's value is the shifted register xor the polynomial; shifting by all N bits leaves 0. -/
theorem hashStepShiftsPastTheLowestSetBit : Obligations.HashStepShiftsPastTheLowestSetBit := by
  refine ⟨fun n r p hr => ?_, fun n p => hstep_zero p, fun n p => ?_⟩
  · obtain ⟨i, hi⟩ := exists_lowestSetBit hr
    refine ⟨i, _, hi, lt_of_isLowestSetBit hi, hstep_of_lowest hi, fun j _ => ?_⟩
    rw [decide_lt_and_getLsbD, BitVec.getLsbD_xor, BitVec.getLsbD_ushiftRight, Nat.add_comm]
  · rw [hstep_of_lowest (isLowestSetBit_twoPow_top n), BitVec.ushiftRight_eq_zero (Nat.le_refl _), BitVec.zero_xor]

/-- Settles O26: the loop consumes all CNT bits or stops at a zero register, and UPDATE answers by which it was. -/
theorem updateConsumesItsBits : Obligations.UpdateConsumesItsBits := by
  refine ⟨fun cnt data => congrArg (· :: []) (headerWord_eq .update 0 0 cnt data),
    fun cnt data s e r => update_consumed, fun cnt data s e k => update_zeroScan, fun cnt data e => ?_,
    fun cnt data s hs => update_noCfg_answers hs cnt data, fun cnt data s e => update_range_answers data,
    illegalWhen_of_fields (op := .update) (fun _ => rfl)
      fun cw hclear hbad => hbad (mid44_of_fieldsClear_update hclear)⟩
  rcases feedBits_cases e.poly0 e.poly1 e.reg (bitsOf [data] cnt.toNat) with ⟨-, -, hfed⟩ | ⟨-, hlt, -, hfed⟩
  · exact .inl ⟨_, hfed⟩
  · rw [bitsOf_length] at hlt
    rw [bitsOf_take _ (Nat.le_of_lt hlt)] at hfed
    exact .inr ⟨_, hlt, hfed⟩

/-- Settles O28: the answer is the words of REG cut to D bits. -/
theorem digestReturnsTheLowBits : Obligations.DigestReturnsTheLowBits := by
  refine ⟨rfl, fun s e he => ⟨_, _, fun i hi => ?_, carries_vecWords _, digest_answers he⟩,
    fun s => digest_noCfg_answers, illegalWhen_noOperand (op := .digest) (by decide)⟩
  simp [hi]

/-- Settles O29: RESET writes REG and nothing else. -/
theorem resetLoadsInit : Obligations.ResetLoadsInit :=
  ⟨rfl, fun _ _ => exec_reset_of_engine, fun _ => reset_noCfg_answers, illegalWhen_noOperand (op := .reset) (by decide)⟩

/-- Settles O30: RDSTATUS answers STATUS, whose D and CFG are read from the engine. -/
theorem rdstatusReturnsStatus : Obligations.RdstatusReturnsStatus := by
  refine ⟨rfl, fun s e he => ?_, fun s hs => ?_, illegalWhen_noOperand (op := .rdstatus) (by decide)⟩
  · simpa [State.d, State.cfg, he] using rdstatus_answers s
  · simpa [State.d, State.cfg, hs] using rdstatus_answers s

/-- Settles O32: each expansion feeds its buffer's bits as one stream, and a stream may be fed in two parts. -/
theorem streamingIsAssociative : Obligations.StreamingIsAssociative := by
  intro s e bufA bufB buf a b isA isB is he hs hA hB hAB hbits
  obtain ⟨s1, hrun1, he1, hz1, hport1⟩ := runExpansion_feeds_bitsOf hA he hs
  obtain ⟨s2, hrun2, he2, hz2, -⟩ := runExpansion_feeds_bitsOf hB he1 hport1
  obtain ⟨t, hrun, het, hzt, -⟩ := runExpansion_feeds_bitsOf hAB he hs
  obtain ⟨hreg, hzero⟩ := feedBits_append_reg_zeroScan e.poly0 e.poly1 e.reg (bitsOf bufA a) (bitsOf bufB b)
  rw [← hbits] at hreg hzero
  refine ⟨s1, s2, t, hrun1, hrun2, hrun, ?_, ?_⟩
  · rw [het, he2, hreg]
  · rw [hzt, hz2, hz1, hzero, Bool.or_assoc]

/-- Settles O34: commands but CONFIG keep INIT, which RESET loads and DIGEST then reads. -/
theorem resetRestoresTheEmptyDigest : Obligations.ResetRestoresTheEmptyDigest := by
  intro s e is he his
  obtain ⟨t, r, hrun, ht⟩ := runsTo_keeps_parameters he his
  exact ⟨t, _, _, hrun, exec_reset_of_engine ht, rfl, digest_answers (e := { e with reg := e.init }) rfl,
    carries_vecWords _⟩

/-- Settles O35: the step is 0 when the shifted register is the polynomial, whose bit 0 is then the register's next bit. -/
theorem zeroRegisterArises : Obligations.ZeroRegisterArises := by
  refine ⟨fun n r p i => hstep_eq_zero_iff, fun n r p i hi hp hzero => ?_, rfl⟩
  rw [← (hstep_eq_zero_iff hi).mp hzero, BitVec.getLsbD_ushiftRight] at hp
  exact hp

end Sys2Proof.Proofs

/-! SUPPORT. What LFSTEP and ORBIT answer, one lemma an outcome (R171, R172). -/

namespace Sys2Proof.Machine

open Sys2Proof.Safety

section Lfstep

variable {n : BitVec 16} {a b : List Word} {v p : BitVec n.toNat} (s : State)

/-- LFSTEP past its width and canonical checks: bit 0 of the polynomial decides (R171). -/
theorem exec_lfstep_of_carries (hw : WidthOk n.toNat) (ha : Carries a v) (hb : Carries b p) :
    exec (.lfstep n a b) s =
      if p.getLsbD 0 then respond .ok n 0 (vecWords (lfStep v p)) s else raise .ePoly 0 s := by
  simp only [exec, execLfstep, (widthInRange_iff _).mpr hw, if_true, readVec_of_carries ha, readVec_of_carries hb]

theorem lfstep_answers (hw : WidthOk n.toNat) (ha : Carries a v) (hb : Carries b p) (h0 : p.getLsbD 0 = true) :
    Answers (.lfstep n a b) s 0 n.toNat 0 (vecWords (lfStep v p)) := by
  refine answers_of_respond (sc := 0) ?_
  rw [exec_lfstep_of_carries s hw ha hb, if_pos h0]

theorem lfstep_poly_answers (hw : WidthOk n.toNat) (ha : Carries a v) (hb : Carries b p) (h0 : p.getLsbD 0 = false) :
    Answers (.lfstep n a b) s 4 0 0 [] := by
  refine answers_of_raise .ePoly ?_
  rw [exec_lfstep_of_carries s hw ha hb, h0]
  rfl

theorem lfstep_width_answers (h : ¬WidthOk n.toNat ∨ NonCanonical n.toNat a ∨ NonCanonical n.toNat b) :
    Answers (.lfstep n a b) s 2 0 0 [] := by
  refine answers_of_raise .eWidth ?_
  simp only [exec, execLfstep]
  split
  · next hw =>
    split
    · next ha hb =>
      rcases h with h | h | h
      · exact absurd ((widthInRange_iff _).mp hw) h
      · exact nomatch ha.symm.trans (readVec_of_nonCanonical h)
      · exact nomatch hb.symm.trans (readVec_of_nonCanonical h)
    · rfl
  · rfl

end Lfstep

/-- ORBIT's result words for `c` values: COUNT, then the orbit's first `c` values in visit order (R172). -/
def orbitResult {n : Nat} (p : BitVec n) (c : Nat) : List Word :=
  BitVec.ofNat 64 c :: (orbitValues p (BitVec.ofNat n 1) c).flatMap vecWords

theorem orbitWords_orbitResult {n : Nat} (p : BitVec n) (c : Nat) : OrbitWords p c (orbitResult p c) := by
  refine ⟨(orbitValues p (BitVec.ofNat n 1) c).map vecWords, ?_, by simp [orbitValues], fun k hk => ?_⟩
  · rw [orbitResult, List.flatMap_def]
  · have hvalue : ((orbitValues p (BitVec.ofNat n 1) c).map vecWords)[k] = vecWords (orbitValue p k) := by
      simp [orbitValues, orbitValue]
    exact hvalue ▸ carries_vecWords _

section Orbit

variable {n : BitVec 16} {a : List Word} {b : Word} {p : BitVec n.toNat} {c : Nat} (s : State)

/-- ORBIT with a budget and a polynomial responds with what the loop from the seed 1 recorded. -/
theorem exec_orbit_of_orbitFrom {closed : Bool} (hw : WidthOk n.toNat) (ha : Carries a p) (hb : b ≠ 0)
    (h0 : p.getLsbD 0 = true)
    (h : orbitFrom p (BitVec.ofNat n.toNat 1) b.toNat (BitVec.ofNat n.toNat 1) =
      (closed, orbitValues p (BitVec.ofNat n.toNat 1) c)) :
    exec (.orbit n a b) s = respond (if closed then .ok else .sBudget) n 0 (orbitResult p c) s := by
  have hcount : (orbitValues p (BitVec.ofNat n.toNat 1) c).length = c := by simp [orbitValues]
  simp only [exec, execOrbit, readOperand_eq_some hw ha, if_neg hb, h0, if_true, buildPoly_nil, h, hcount, orbitResult]

/-- ORBIT whose budget reaches the period lists the whole orbit. -/
theorem orbit_closed_answers (hw : WidthOk n.toNat) (ha : Carries a p) (h0 : p.getLsbD 0 = true) (hc : HasPeriod p c)
    (hcb : c ≤ b.toNat) : Answers (.orbit n a b) s 0 n.toNat 0 (orbitResult p c) := by
  obtain ⟨hpos, hreturns, hfirst⟩ := hc
  have hb : b ≠ 0 := by
    rintro rfl
    exact absurd hcb (Nat.not_le_of_lt hpos)
  have hloop := orbitFrom_closed p _ b.toNat c _ hpos hcb hreturns hfirst
  have hexec := exec_orbit_of_orbitFrom s hw ha hb h0 hloop
  exact answers_of_respond (sc := 0) hexec

/-- ORBIT whose budget ends before the orbit closes lists as many values as the budget says. -/
theorem orbit_open_answers (hw : WidthOk n.toNat) (ha : Carries a p) (h0 : p.getLsbD 0 = true) (hb : b ≠ 0)
    (h : ∀ k, 1 ≤ k → k ≤ b.toNat → orbitValue p k ≠ BitVec.ofNat n.toNat 1) :
    Answers (.orbit n a b) s 8 n.toNat 0 (orbitResult p b.toNat) := by
  rw [Answers, exec_orbit_of_orbitFrom s hw ha hb h0 (orbitFrom_open p _ _ _ h), respond_eq]
  rfl

theorem orbit_width_answers (h : ¬WidthOk n.toNat ∨ NonCanonical n.toNat a) : Answers (.orbit n a b) s 2 0 0 [] := by
  refine answers_of_raise .eWidth ?_
  simp only [exec, execOrbit, readOperand_eq_none h]

theorem orbit_range_answers (hw : WidthOk n.toNat) (ha : Carries a p) : Answers (.orbit n a 0) s 5 0 0 [] := by
  refine answers_of_raise .eRange ?_
  simp only [exec, execOrbit, readOperand_eq_some hw ha, if_true]

theorem orbit_poly_answers (hw : WidthOk n.toNat) (ha : Carries a p) (hb : b ≠ 0) (h0 : p.getLsbD 0 = false) :
    Answers (.orbit n a b) s 4 0 0 [] := by
  refine answers_of_raise .ePoly ?_
  simp only [exec, execOrbit, readOperand_eq_some hw ha, if_neg hb, h0]
  rfl

end Orbit

end Sys2Proof.Machine

/-! SUPPORT. The step on the values below 2^m, m the bit length of P: it permutes them, so the seed's orbit is a cycle of
distinct, non-zero values (R173, R174). -/

namespace Sys2Proof.Machine

open Sys2Proof.Safety

theorem hasPeriod_iff_minimalPeriod {n : Nat} {p : BitVec n} {c : Nat} :
    HasPeriod p c ↔ 1 ≤ c ∧ Function.minimalPeriod (fun v => lfStep v p) (BitVec.ofNat n 1) = c := by
  constructor
  · rintro ⟨hpos, hreturns, hfirst⟩
    have hperiodic : Function.IsPeriodicPt (fun v => lfStep v p) c (BitVec.ofNat n 1) := hreturns
    have hnotBefore := mt (hfirst _ (hperiodic.minimalPeriod_pos hpos)) (not_not_intro Function.iterate_minimalPeriod)
    exact ⟨hpos, (hperiodic.minimalPeriod_le hpos).antisymm (Nat.le_of_not_lt hnotBefore)⟩
  · rintro ⟨hpos, rfl⟩
    exact ⟨hpos, Function.iterate_minimalPeriod, fun k hk hlt =>
      Function.not_isPeriodicPt_of_pos_of_lt_minimalPeriod (Nat.ne_of_gt hk) hlt⟩

/-- The values the orbit visits before it closes are distinct. -/
theorem orbitValue_injOn {n : Nat} {p : BitVec n} {c : Nat} (h : HasPeriod p c) :
    (Set.Iio c).InjOn (orbitValue p) := by
  obtain ⟨-, rfl⟩ := hasPeriod_iff_minimalPeriod.mp h
  exact Function.iterate_injOn_Iio_minimalPeriod

theorem orbitValue_succ {n : Nat} (p : BitVec n) (k : Nat) : orbitValue p (k + 1) = lfStep (orbitValue p k) p :=
  Function.iterate_succ_apply' ..

/-- `m` is the bit length of the polynomial `p`: bit 0 is set, and the highest set bit is `m − 1` (R132, R173). -/
structure PolyOfBitLength {n : Nat} (p : BitVec n) (m : Nat) : Prop where
  bit_zero : p.getLsbD 0 = true
  two_pow_le : 2 ^ (m - 1) ≤ p.toNat
  lt_two_pow : p.toNat < 2 ^ m

/-- The values of width `n` below 2^m. -/
def valuesBelow (n m : Nat) : Set (BitVec n) := {v | v.toNat < 2 ^ m}

namespace PolyOfBitLength

variable {n m c : Nat} {p : BitVec n} (hp : PolyOfBitLength p m)

include hp

theorem width_pos : 0 < n := BitVec.lt_of_getLsbD hp.bit_zero

theorem length_pos : 0 < m := by
  refine Nat.pos_of_ne_zero ?_
  rintro rfl
  exact Nat.not_le_of_lt hp.lt_two_pow hp.two_pow_le

theorem le_width : m ≤ n := by
  have hlt : 2 ^ (m - 1) < 2 ^ n := hp.two_pow_le.trans_lt p.isLt
  have := (Nat.pow_lt_pow_iff_right (by decide)).mp hlt
  omega

theorem top_bit : p.getLsbD (m - 1) = true := by
  by_contra htop
  have hlt : p.toNat < 2 ^ (m - 1) := Nat.lt_pow_two_of_testBit _ fun i hi => by
    rcases Nat.eq_or_lt_of_le hi with rfl | hgt
    · exact Bool.eq_false_of_not_eq_true htop
    · exact Nat.testBit_lt_two_pow (hp.lt_two_pow.trans_le (Nat.pow_le_pow_right (by decide) (by omega)))
  exact Nat.not_le_of_lt hlt hp.two_pow_le

/-- Both `V >> 1` and `P` are below 2^m. -/
theorem lfStep_mapsTo : (valuesBelow n m).MapsTo (fun v => lfStep v p) (valuesBelow n m) := by
  intro v hv
  have hshift : (v >>> 1).toNat < 2 ^ m := by
    rw [BitVec.toNat_ushiftRight, Nat.shiftRight_one]
    exact (Nat.div_le_self ..).trans_lt hv
  have hmask : (if v.getLsbD 0 then p else 0).toNat < 2 ^ m := by
    split
    · exact hp.lt_two_pow
    · exact Nat.two_pow_pos m
  show (lfStep v p).toNat < 2 ^ m
  rw [lfStep_eq, BitVec.toNat_xor]
  exact Nat.xor_lt_two_pow hshift hmask

/-- The top bit of the next value tells whether P was added. -/
theorem lfStep_top_bit {v : BitVec n} (hv : v ∈ valuesBelow n m) : (lfStep v p).getLsbD (m - 1) = v.getLsbD 0 := by
  have hm := hp.length_pos
  have hbeyond : v.getLsbD (m - 1 + 1) = false := by
    rw [Nat.sub_add_cancel hm]
    exact Nat.testBit_lt_two_pow hv
  have hplace : m - 1 < n := (Nat.sub_one_lt_of_lt hm).trans_le hp.le_width
  rw [lfStep_getLsbD v p hplace, hbeyond, hp.top_bit]
  simp

/-- The next value gives back bit 0, and with it `V >> 1`. -/
theorem lfStep_injOn : (valuesBelow n m).InjOn (fun v => lfStep v p) := by
  intro u hu v hv (huv : lfStep u p = lfStep v p)
  have hlow : u.getLsbD 0 = v.getLsbD 0 := by rw [← hp.lfStep_top_bit hu, huv, hp.lfStep_top_bit hv]
  have hshift : u >>> 1 = v >>> 1 := by
    rw [lfStep_eq, lfStep_eq, hlow] at huv
    exact (BitVec.xor_left_inj _).mp huv
  apply BitVec.eq_of_getLsbD_eq
  intro i hi
  cases i with
  | zero => exact hlow
  | succ i => simpa [Nat.add_comm] using congrArg (·.getLsbD i) hshift

theorem seed_mem : BitVec.ofNat n 1 ∈ valuesBelow n m := by
  show 1 % 2 ^ n < 2 ^ m
  exact (Nat.mod_le ..).trans_lt (Nat.one_lt_two_pow (Nat.ne_of_gt hp.length_pos))

theorem orbitValue_mem (k : Nat) : orbitValue p k ∈ valuesBelow n m :=
  hp.lfStep_mapsTo.iterate k hp.seed_mem

/-- 0 maps to 0 and to nothing else, so it is not on the seed's orbit. -/
theorem orbitValue_ne_zero (k : Nat) : orbitValue p k ≠ 0 := by
  induction k with
  | zero =>
    have hn : n ≠ 0 := Nat.ne_of_gt hp.width_pos
    simpa [orbitValue] using hn
  | succ k ih =>
    intro hzero
    rw [orbitValue_succ] at hzero
    exact ih (hp.lfStep_injOn (hp.orbitValue_mem k) (Nat.two_pow_pos m) (hzero.trans (lfStep_zero p).symm))

/-- An injective step on finitely many values brings the seed back. -/
theorem exists_hasPeriod : ∃ c, HasPeriod p c := by
  have hinj : Function.Injective hp.lfStep_mapsTo.restrict := (Set.MapsTo.restrict_inj _).mpr hp.lfStep_injOn
  obtain ⟨c, hc, hreturns⟩ := Function.mem_periodicPts.mp (hinj.mem_periodicPts ⟨_, hp.seed_mem⟩)
  have hperiodic : Function.IsPeriodicPt (fun v => lfStep v p) c (BitVec.ofNat n 1) :=
    hreturns.map (g := Subtype.val) fun _ => rfl
  exact ⟨_, hasPeriod_iff_minimalPeriod.mpr ⟨hperiodic.minimalPeriod_pos hc, rfl⟩⟩

theorem period_le (hc : HasPeriod p c) : c ≤ 2 ^ m - 1 := by
  have hmaps : Set.MapsTo (fun k => (orbitValue p k).toNat) (Finset.range c) (Finset.Ico 1 (2 ^ m)) := fun k _ =>
    Finset.mem_coe.mpr (Finset.mem_Ico.mpr
      ⟨Nat.pos_of_ne_zero (BitVec.toNat_ne_iff_ne.mpr (hp.orbitValue_ne_zero k)), hp.orbitValue_mem k⟩)
  have hinj : Set.InjOn (fun k => (orbitValue p k).toNat) (Finset.range c) := fun j hj k hk hjk =>
    orbitValue_injOn hc (Finset.mem_range.mp hj) (Finset.mem_range.mp hk) (BitVec.eq_of_toNat_eq hjk)
  simpa using Finset.card_le_card_of_injOn _ hmaps hinj

end PolyOfBitLength

end Sys2Proof.Machine

namespace Sys2Proof.Proofs

open Sys2Proof.Machine Sys2Proof.Safety

/-- Settles O36: past the width and canonical checks, bit 0 of the polynomial decides, and the answer is the words of the
step's value. -/
theorem lfstepIsOneLfsrStep : Obligations.LfstepIsOneLfsrStep :=
  ⟨fun n a b => congrArg (· :: (a ++ b)) (headerWord_eq .lfstep n 0 0 0),
    fun _ _ _ v p s hw ha hb h0 =>
      ⟨_, _, fun _ => lfStep_getLsbD v p, carries_vecWords _, lfstep_answers s hw ha hb h0⟩,
    fun _ _ _ _ _ s => lfstep_poly_answers s, fun _ _ _ s => lfstep_width_answers s,
    illegalWhen_of_fields (op := .lfstep) (fun cw => by rw [payloadLen, waField_toNat])
      fun _ hclear hbad => hbad (low40_of_fieldsClear (by decide) hclear)⟩

/-- Settles O37: the loop records the values of repeated steps, up to the period or the budget. -/
theorem orbitListsTheOrbit : Obligations.OrbitListsTheOrbit :=
  ⟨fun n a b => congrArg (· :: (a ++ [b])) (headerWord_eq .orbit n 0 0 0),
    fun _ _ _ p s c hw ha h0 hc hcb => ⟨_, orbitWords_orbitResult p c, orbit_closed_answers s hw ha h0 hc hcb⟩,
    fun _ _ b p s hw ha h0 hb hopen =>
      ⟨_, orbitWords_orbitResult p b.toNat, orbit_open_answers s hw ha h0 hb hopen⟩,
    fun _ _ _ s => orbit_width_answers s, fun _ _ _ s => orbit_range_answers s,
    fun _ _ _ _ s => orbit_poly_answers s,
    illegalWhen_of_fields (op := .orbit) (fun cw => by rw [payloadLen, waField_toNat])
      fun _ hclear hbad => hbad (low40_of_fieldsClear (by decide) hclear)⟩

/-- Settles O38: the step is injective on finitely many values, so the seed comes back, within 2^m − 1 steps. -/
theorem everyOrbitCloses : Obligations.EveryOrbitCloses := by
  intro n m p h0 hle hlt
  have hp : PolyOfBitLength p m := ⟨h0, hle, hlt⟩
  obtain ⟨c, hc⟩ := hp.exists_hasPeriod
  refine ⟨fun v hv => hp.lfStep_mapsTo hv, fun u v hu hv huv => hp.lfStep_injOn hu hv huv,
    ⟨c, hc, fun j k hj hk hjk => orbitValue_injOn hc hj hk hjk⟩, ?_⟩
  rintro w q a b s rfl hq hw ha hb
  obtain rfl : q = p := BitVec.eq_of_toNat_eq hq
  exact ⟨_, orbit_closed_answers s hw ha h0 hc ((hp.period_le hc).trans hb)⟩

/-- Settles O39: the orbit's values are distinct, non-zero and below 2^m, and 2^m reaches 2^N only for m = N. -/
theorem periodIsBounded : Obligations.PeriodIsBounded := by
  intro n m c p h0 hle hlt hc
  have hp : PolyOfBitLength p m := ⟨h0, hle, hlt⟩
  have hperiod := hp.period_le hc
  have hpow : 2 ^ m ≤ 2 ^ n := Nat.pow_le_pow_right (by decide) hp.le_width
  refine ⟨hperiod, Nat.sub_le_sub_right hpow 1, fun k => ⟨hp.orbitValue_ne_zero k, hp.orbitValue_mem k⟩, fun hfull => ?_⟩
  have hge : 2 ^ n ≤ 2 ^ m := by have := Nat.two_pow_pos m; have := Nat.two_pow_pos n; omega
  obtain rfl : m = n := Nat.pow_right_injective (Nat.le_refl 2) (hpow.antisymm hge)
  exact hp.top_bit

theorem hasPeriod_seven : HasPeriod (0b111#3) 4 :=
  ⟨by decide, by decide, fun k hk hlt => by interval_cases k <;> decide⟩

theorem hasPeriod_three : HasPeriod (0b011#3) 3 :=
  ⟨by decide, by decide, fun k hk hlt => by interval_cases k <;> decide⟩

/-- Settles O40: ORBIT lists the whole orbit, as the budget 100 reaches both periods. -/
theorem periodNeedNotDivide : Obligations.PeriodNeedNotDivide := by
  have hw : WidthOk (3#16).toNat := ⟨by decide, Nat.le_trans (by decide) nmax_ge⟩
  refine ⟨hasPeriod_seven, hasPeriod_three, by decide, by decide, fun s => ⟨?_, ?_⟩⟩
  · exact orbit_closed_answers (n := 3) (b := 100) s hw (carries_vecWords (7#3)) rfl hasPeriod_seven (by decide)
  · exact orbit_closed_answers (n := 3) (b := 100) s hw (carries_vecWords (3#3)) rfl hasPeriod_three (by decide)

end Sys2Proof.Proofs

/-! SUPPORT. Errors and the run of the unit: what an effect with an error status is, and that steps go on for ever. -/

namespace Sys2Proof.Safety

open Sys2Proof.Machine

/-- Of the effects with a status other than OK, only UPDATE's zero scan changes the engine or ZF (R210, D33). -/
theorem effect_of_status_ne_zero {i : Instr} {s t : State} {st : Nat} (h : Effect i s t st) (hst : st ≠ 0) :
    (t.engine = s.engine ∧ t.zf = s.zf) ∨
    (isUpdate i = true ∧ st = 1 ∧ ∃ e, s.engine = some e ∧ t.engine = some { e with reg := 0 } ∧ t.zf = true) := by
  rcases h with hkept | ⟨-, h0, -⟩ | ⟨-, h0, -⟩ | hscan | ⟨-, h0, -⟩
  · exact .inl hkept
  · exact absurd h0 hst
  · exact absurd h0 hst
  · exact .inr hscan
  · exact absurd h0 hst

/-- A state is its four fields. -/
theorem state_eq_of_fields {s t : State} (he : t.engine = s.engine) (hz : t.zf = s.zf) (hc : t.cmdPort = s.cmdPort)
    (hr : t.respPort = s.respPort) : t = s := by
  cases s; cases t
  exact State.mk.injEq .. |>.mpr ⟨he, hz, hc, hr⟩

/-- A step always answers a next state, so a run of any length does. -/
theorem neverStops (s : State) : NeverStops s := by
  intro k
  induction k generalizing s with
  | zero => exact ⟨s, rfl⟩
  | succ k ih =>
    obtain ⟨t, ht⟩ := step_next s
    obtain ⟨u, hu⟩ := ih t
    exact ⟨u, (core_run_succ (M := Sys2Proof.core) k ht).trans hu⟩

end Sys2Proof.Safety

namespace Sys2Proof.Proofs

open Sys2Proof.Machine Sys2Proof.Safety

/-- Settles O31: with no engine each of the three commands answers E_NOCFG. -/
theorem hashCommandsNeedAnEngine : Obligations.HashCommandsNeedAnEngine :=
  fun _ hs => ⟨update_noCfg_answers hs, digest_noCfg_answers hs, reset_noCfg_answers hs⟩

/-- Settles O43: every step answers a next state. -/
theorem runsNeverStop : Obligations.RunsNeverStop := neverStops

/-- Settles O45: the status sent is that of the command's effect, and of the effects with an error status only UPDATE's zero
scan writes state. -/
theorem failedCommandChangesNothing : Obligations.FailedCommandChangesNothing := by
  intro s t i st hexec hnew hst _
  obtain ⟨code, w, sc, ws, hresp, ⟨hcode, hw, hsc, -⟩, heff⟩ := effect_of_exec hexec
  obtain ⟨t', ht', hport⟩ := exec_keeps_cmdPort i s
  obtain rfl : t' = t := Host.Outcome.next.inj (ht'.symm.trans hexec)
  obtain rfl : BitVec.ofNat 8 code = st :=
    Option.some.inj ((newestStatus_of hresp hcode hw hsc).symm.trans hnew)
  have hcode0 : code ≠ 0 := by
    rintro rfl
    exact hst rfl
  rcases effect_of_status_ne_zero heff hcode0 with ⟨he, hz⟩ | ⟨hi, rfl, e, he, ht, hz⟩
  · exact .inl (state_eq_of_fields he hz hport rfl)
  · exact .inr ⟨rfl, hi, e, he, state_eq_of_fields ht hz hport rfl⟩

/-- Settles O51: no command runs past a set reserved field, and each command's answer for the earlier error asks nothing of
the later one's condition. -/
theorem errorsFollowTheSpecsPriority : Obligations.ErrorsFollowTheSpecsPriority := by
  obtain ⟨-, hillegal, -, -⟩ := decodeCheckComesFirst
  exact ⟨fun s cw ws n hs hn hlen hrsv => hillegal s cw ws n hs hn hlen (.inl hrsv),
    fun cnt data _ hs _ => update_noCfg_answers hs cnt data,
    fun _ _ _ s hwidth _ => shr_width_answers s hwidth,
    fun _ _ s hwidth _ => lsb_width_answers s hwidth,
    fun _ _ _ _ hwidth _ => buildpoly_width_answers hwidth,
    fun _ _ _ _ s hwidth _ => config_width_answers s hwidth,
    fun _ _ _ s hwidth _ => lfstep_width_answers s hwidth,
    fun _ _ _ s hwidth _ => orbit_width_answers s hwidth,
    fun _ data _ _ he _ hcnt => update_range_answers data he hcnt,
    fun _ _ _ s hw ha _ => orbit_range_answers s hw ha⟩

end Sys2Proof.Proofs
